-- ==== Sys2Proof/Word.lean ====
section
/-! DEFINITION. The plain values of the RelayChecker block: bytes, strings of bytes, pin levels, and the names of
the four GPIO banks. What these are worth as wires stands in Machine/Operands.lean. -/

namespace Sys2Proof

/-- A byte: 8 bits, bit 0 the least significant (00_scope.md R14). -/
abbrev Byte := BitVec 8

/-- A string: a finite sequence of bytes, the byte received first at offset 0 (00_scope.md R14). -/
abbrev Str := List Byte

/-- The level of a pin (00_scope.md R15). -/
inductive Level where
  | low
  | high
deriving DecidableEq, Repr, Inhabited

/-- The two output banks (20_memory.md R61). A write names one of these, so that a write to an input bank cannot be
written down (20_memory.md R65). -/
inductive OutBank where
  | outA
  | outB
deriving DecidableEq, Repr, Inhabited

/-- The two input banks (20_memory.md R61). A read names one of these, so that a read of an output bank cannot be
written down (20_memory.md R65). -/
inductive InBank where
  | inA
  | inB
deriving DecidableEq, Repr, Inhabited

/-- The number of a bit within a bank, 0 to 7 (20_memory.md R61). -/
abbrev BitIx := Fin 8

end Sys2Proof
end

