-- ==== Sys2Proof/Config.lean ====
section
/-! DEFINITION. The parameters of 00_scope.md section 3, the moves the environment can make, and the free values of the
model. Every parameter a rule depends on is a field of `Config` but `T_POLL`, which the environment's moves make, and
every State carries its Config, so that a statement about every state holds for every configuration. -/

namespace Sys2Proof

/-- A timestamp: an unsigned integer below 2^TIME_BITS (00_scope.md R16). It is a natural number, as TIME_BITS is a
parameter (R10), and the bound is an invariant (Safety.lean). -/
abbrev Timestamp := Nat

/-- `NUMPARSE`: how a partly numeric two-byte field is read (30_encoding.md R101; 93_implementation_defined.md U2). -/
inductive NumParse where
  | strictPrefix
  | cAtol
deriving DecidableEq, Repr, Inhabited

/-- The implementation parameters (00_scope.md section 3). -/
structure Config where
  /-- `TIME_BITS`, the width of the millisecond counter (R10). -/
  timeBits : Nat
  /-- `DEBOUNCE_DELAY` in ms, below 2^TIME_BITS by `Config.wf` (R5). -/
  debounceDelay : Nat
  /-- `STABLE_TIME` in ms, below 2^TIME_BITS by `Config.wf` (R6). -/
  stableTime : Nat
  /-- `ESC_DELAY` in ms; the spec gives it no bound (R7). -/
  escDelay : Nat
  /-- `ADC_BITS`, at most 13 by its type: a configuration with more is refused by being unwritable (R8, R213). -/
  adcBits : Fin 14
  /-- `LINE_MAX`: `none` is the unbounded buffer of the source (R11). -/
  lineMax : Option Nat
  /-- `BUTTON_BANK` (R12). -/
  buttonBank : InBank
  /-- `BUTTON_BIT` (R12). -/
  buttonBit : BitIx
  /-- `ADC_CHANNEL`, open (R13). -/
  adcChannel : Nat
  /-- `RELAY_RESET`, open: bit i is the level of relay i + 1 after reset, 1 = HIGH (R13; 10_state.md R29, R30). -/
  relayReset : BitVec 11
  /-- `NUMPARSE` (R13). -/
  numParse : NumParse
  /-- `TRIM_SET`: the bytes that trimming removes (R13; 30_encoding.md R94). -/
  trimSet : List Byte
  /-- `LOOPBACK`, open: whether the transport brings every transmitted byte back (R13; 20_memory.md R80). -/
  loopback : Bool
deriving DecidableEq, Repr

/-- The reference configuration: the values that 95_test_vectors.md uses. `ADC_CHANNEL` has no reference value in the
spec; 0 stands for it (DESIGN CHOICE, notes/assumptions/2.md). -/
def Config.reference : Config where
  timeBits := 32
  debounceDelay := 100
  stableTime := 1000
  escDelay := 50
  adcBits := 12
  lineMax := some 64
  buttonBank := .inB
  buttonBit := 7
  adcChannel := 0
  relayReset := 0b11111111111
  numParse := .strictPrefix
  trimSet := [0x20, 0x09, 0x0A, 0x0B, 0x0C, 0x0D]
  loopback := false

/-- One move of the environment (46_poll_loop.md R268: the oracle of the step): time passes, bytes arrive on the RX
stream, and the pins and the analog input take the values they have afterwards. -/
structure EnvMove where
  /-- Milliseconds that pass (60_exceptions.md R293), as far as the next poll allows (46_poll_loop.md R266). -/
  dt : Nat
  /-- Bytes that arrive, oldest first (20_memory.md R69). -/
  arrive : Str
  /-- Pin levels of bank IN_A after the move. -/
  inA : BitVec 8
  /-- Pin levels of bank IN_B after the move. -/
  inB : BitVec 8
  /-- What the converter would deliver after the move. -/
  adcRaw : Nat
deriving DecidableEq, Repr, Inhabited

/-- What becomes of one capability call (60_exceptions.md R283, 70_reset_and_hazards.md R334;
93_implementation_defined.md U3). -/
inductive CallFate where
  /-- It does its work and returns: what `CAP_OK` promises of every call (20_memory.md R81). -/
  | done
  /-- It returns without having done its work, and nobody is told. A read then delivers what the number gives. -/
  | failed (garbage : Nat)
  /-- It never returns. -/
  | hangs
deriving DecidableEq, Repr, Inhabited

/-- FREE VALUE: the environment's n-th unscripted move. It has no body, so nothing can be proved of it: every pin
level, sample, arrival and passage of time is possible (93_implementation_defined.md U10 to U13;
notes/assumptions/4.md). -/
opaque Config.freeMove : Nat → EnvMove

/-- FREE VALUE: the fate of the n-th unscripted capability call while the premise `CAP_OK` does not hold
(notes/assumptions/6.md). -/
opaque Config.freeFate : Nat → CallFate

end Sys2Proof
end

