-- ==== Sys2Proof/Syntax.lean ====
section
/-! DEFINITION. The instructions of the block: the rows of spec/opcode_table.json, one constructor each. -/

namespace Sys2Proof

/-- The sixteen rows: three byte classes (30_encoding.md R91), eight command classes (R95 to R103), and the five cases
of the debounce step (R114). The operands of a debounce case, the sampled level and time, stand in State. -/
inductive Instr where
  /-- `BYTE_CR` (40_line_assembler.md R131). -/
  | byteCr
  /-- `BYTE_LF` (40_line_assembler.md R132). -/
  | byteLf
  /-- `BYTE_DATA` (40_line_assembler.md R133): the byte appended. -/
  | byteData (b : Byte)
  /-- `HARDCHECK` (41_command_dispatcher.md R151). -/
  | hardcheck
  /-- `OUT_ON` (R152): the RelayId. -/
  | outOn (id : Nat)
  /-- `OUT_OFF` (R153): the RelayId. -/
  | outOff (id : Nat)
  /-- `OUT_RANGE` (R154): the parsed number, no RelayId. -/
  | outRange (n : Nat)
  /-- `IN` (R155): the InputId. -/
  | inRead (id : Nat)
  /-- `IN_RANGE` (R156): the parsed number, no InputId. -/
  | inRange (n : Nat)
  /-- `AD` (R157). -/
  | ad
  /-- `UNKNOWN` (R158): the Command's text. -/
  | unknown (text : Str)
  /-- `DB_FIRST` (45_debounce_edge.md R227). -/
  | dbFirst
  /-- `DB_ACCEPT` (R230). -/
  | dbAccept
  /-- `DB_REJECT` (R231). -/
  | dbReject
  /-- `DB_FIRE` (R228). -/
  | dbFire
  /-- `DB_HOLD` (R229). -/
  | dbHold
deriving DecidableEq, Repr

/-- What an instruction is decoded from, at the three levels of 30_encoding.md R90 and R114: an inbound byte, a trimmed
Command, or the condition vector of a poll. -/
inductive Code where
  | byte (b : Byte)
  | command (text : Str)
  | poll (ev : BitVec 5)
deriving DecidableEq, Repr

end Sys2Proof
end

