-- ==== Sys2Proof/Decode.lean ====
section
/-! DEFINITION. Decoding and encoding: 30_encoding.md. Decoding is total at every level and rejects nothing: what fits
no format is the instruction UNKNOWN, the name the spec gives it (R99, R105). -/

namespace Sys2Proof

/-! ## Strings (00_scope.md R14) and literal texts (30_encoding.md R92) -/

/-- `sub(s, off, n)`, used where `off + n <= len(s)`. -/
def sub (s : Str) (off n : Nat) : Str := (s.drop off).take n

def startsWith (s p : Str) : Bool := decide (p.length ≤ s.length) && decide (sub s 0 p.length = p)

def endsWith (s p : Str) : Bool :=
  decide (p.length ≤ s.length) && decide (sub s (s.length - p.length) p.length = p)

/-- The byte at offset i. Every use stands under a length guard (20_memory.md R73), so that the default is never
looked at. -/
def byteAt (s : Str) (i : Nat) : Byte := s.getD i 0

def charCR : Byte := 0x0D
def charLF : Byte := 0x0A

def textHardcheck : Str := [0x23, 0x23, 0x68, 0x61, 0x72, 0x64, 0x63, 0x68, 0x65, 0x63, 0x6B]
def textOut : Str := [0x24, 0x6F, 0x75, 0x74]
def textIn : Str := [0x24, 0x69, 0x6E]
def textAd : Str := [0x24, 0x61, 0x64]
def textOn : Str := [0x6F, 0x6E]
def textOff : Str := [0x6F, 0x66, 0x66]

/-- CR and LF, the terminators (R91). -/
def isTerminator (b : Byte) : Bool := b == charCR || b == charLF

/-! ## Trimming (R94) -/

/-- The byte is one of `TRIM_SET`. -/
def inTrimSet (set : List Byte) (b : Byte) : Bool := decide (b ∈ set)

/-- `trim(s)`: the longest leading and the longest trailing run of `TRIM_SET` are removed (R94). -/
def trim (set : List Byte) (s : Str) : Str :=
  ((s.dropWhile (inTrimSet set)).reverse.dropWhile (inTrimSet set)).reverse

/-! ## Level 3: fields (R101 to R103) -/

def isDigit (c : Byte) : Bool := decide (0x30 ≤ c.toNat ∧ c.toNat ≤ 0x39)

/-- `digit(c) = c - 0x30`, used where `isdigit(c)` (R92). -/
def digit (c : Byte) : Nat := c.toNat - 0x30

/-- The value of the leading digits of two bytes, 0 if there are none: `NUMPARSE = strict_prefix` (R101). -/
def dec2Strict (c0 c1 : Byte) : Nat :=
  if !isDigit c0 then 0
  else if !isDigit c1 then digit c0
  else 10 * digit c0 + digit c1

/-- `NUMPARSE = c_atol` (93_implementation_defined.md U2): leading bytes of `TRIM_SET` are skipped and one sign is
accepted. With two bytes this leaves at most one digit after a skipped byte or a sign. A negative value stands as 0, as
the table of 95_test_vectors.md section 2.2 has it, and fails the range check like one (DEDUCED,
notes/assumptions/12.md). -/
def dec2Atol (set : List Byte) (c0 c1 : Byte) : Nat :=
  if isDigit c0 then dec2Strict c0 c1
  else if inTrimSet set c0 || decide (c0 = 0x2B) then (if isDigit c1 then digit c1 else 0)
  else 0

/-- `dec2(c0, c1)` (R101), with `NUMPARSE` and `TRIM_SET` its parameters. -/
def dec2 (c : Config) (c0 c1 : Byte) : Nat :=
  match c.numParse with
  | .strictPrefix => dec2Strict c0 c1
  | .cAtol => dec2Atol c.trimSet c0 c1

/-! ## Levels 1 and 2, and the poll event -/

/-- Level 1, the byte class (R91). -/
def decodeByte (b : Byte) : Instr :=
  if b = charCR then .byteCr
  else if b = charLF then .byteLf
  else .byteData b

/-- Format O (R96). -/
def isFormatO (c : Str) : Bool := startsWith c textOut && decide (8 ≤ c.length)

/-- Format I (R97). -/
def isFormatI (c : Str) : Bool := startsWith c textIn && decide (5 ≤ c.length)

/-- A Command of format O whose number is n (R102, R103). -/
def decodeOut (c : Str) (n : Nat) : Instr :=
  if 1 ≤ n ∧ n ≤ 11 then (if endsWith c textOn then .outOn n else .outOff n)
  else .outRange n

/-- A Command of format I whose number is n (R102). -/
def decodeIn (n : Nat) : Instr :=
  if 1 ≤ n ∧ n ≤ 8 then .inRead n else .inRange n

/-- Level 2, `decode(cmd)` (R113): the formats in the order H, O, I, A, U (R100). -/
def decodeCommand (g : Config) (c : Str) : Instr :=
  if c = textHardcheck then .hardcheck
  else if isFormatO c then decodeOut c (dec2 g (byteAt c 4) (byteAt c 5))
  else if isFormatI c then decodeIn (dec2 g (byteAt c 3) (byteAt c 4))
  else if c = textAd then .ad
  else .unknown c

/-- The case of the debounce step that a condition vector selects (R114). -/
def decodePoll (ev : BitVec 5) : Instr :=
  if ev &&& 0x10#5 = 0x00#5 then .dbFirst
  else if ev &&& 0x1C#5 = 0x1C#5 then .dbAccept
  else if ev &&& 0x1C#5 = 0x18#5 then .dbReject
  else if ev &&& 0x1B#5 = 0x12#5 then .dbFire
  else .dbHold

/-- The whole decoder. -/
def decode (g : Config) : Code → Instr
  | .byte b => decodeByte b
  | .command c => decodeCommand g c
  | .poll ev => decodePoll ev

/-! ## The encoder -/

/-- The two decimal digits of a number below 100, tens first (20_memory.md R72). -/
def digits2 (n : Nat) : Str := [BitVec.ofNat 8 (0x30 + n / 10 % 10), BitVec.ofNat 8 (0x30 + n % 10)]

/-- The canonical spelling of an instruction (R104). An out-of-range relay number takes the suffix `on`, which is not
examined (41_command_dispatcher.md R154); a debounce case takes 0 for the bits that are not looked at. -/
def encode : Instr → Code
  | .byteCr => .byte charCR
  | .byteLf => .byte charLF
  | .byteData b => .byte b
  | .hardcheck => .command textHardcheck
  | .outOn n => .command (textOut ++ digits2 n ++ textOn)
  | .outOff n => .command (textOut ++ digits2 n ++ textOff)
  | .outRange n => .command (textOut ++ digits2 n ++ textOn)
  | .inRead n => .command (textIn ++ digits2 n)
  | .inRange n => .command (textIn ++ digits2 n)
  | .ad => .command textAd
  | .unknown c => .command c
  | .dbFirst => .poll 0x00#5
  | .dbAccept => .poll 0x1C#5
  | .dbReject => .poll 0x18#5
  | .dbFire => .poll 0x12#5
  | .dbHold => .poll 0x10#5

/-! ## Words as spec/opcode_table.json numbers them (notes/assumptions/9.md) -/

/-- The bytes of a table word of `nbits` bits. The table writes a text as ONE number whose most significant byte is
the byte at offset 0: `$ad` is 0x246164. -/
def tableBytes (nbits w : Nat) : Str :=
  (List.range (nbits / 8)).map fun i => BitVec.ofNat 8 (w >>> (8 * (nbits / 8 - 1 - i)))

/-- The operand bytes that the table gives no bits: zeros up to the least length of the format. -/
def padOperands (c : Str) : Str :=
  if startsWith c textOut then c ++ List.replicate (8 - c.length) 0
  else if startsWith c textIn then c ++ List.replicate (5 - c.length) 0
  else c

/-- What a table word stands for. One byte names a byte class or a poll vector; where it could be either (below 32 and
no terminator) it is read as the vector. -/
def tableCode (nbits w : Nat) : Code :=
  if 1 ≤ nbits ∧ nbits ≤ 8 then
    if nbits = 8 ∧ (w = 0x0D ∨ w = 0x0A ∨ 32 ≤ w) then .byte (BitVec.ofNat 8 w)
    else .poll (BitVec.ofNat 5 w)
  else .command (padOperands (tableBytes nbits w))

/-- The instruction the decoder, in the reference configuration, reads from a table word; none if the word has bits
above `nbits`. -/
def decodeTableWord (nbits w : Nat) : Option Instr :=
  if w < 2 ^ nbits then some (decode Config.reference (tableCode nbits w)) else none

end Sys2Proof
end

