-- ==== Sys2Proof/Machine/State.lean ====
section
/-! DEFINITION. What the block holds, what its environment holds, and the state after reset. -/

namespace Sys2Proof.Machine

/-- `SEQ`, the phase of the poll-loop sequencer (10_state.md R31). -/
inductive Phase where
  | drain
  | debounce
  | escWait
  | escSend
deriving DecidableEq, Repr

/-- The events of the diagnostic stream (60_exceptions.md R285). -/
inductive LogCode where
  | hardcheckRx
  | outRange
  | unknownCmd
  | inputState
  | lineOverflow
deriving DecidableEq, Repr

/-- The state set of the debounce machine (10_state.md R28): a view of `DB_INIT` and `DB_CONF`, not a register. -/
inductive DbView where
  | uninit
  | pending
  | confirmed
deriving DecidableEq, Repr

/-- One completed call at the block's boundary (00_scope.md R17, 10_state.md R38). -/
inductive Event where
  /-- `RxPop() = b` (20_memory.md R69). -/
  | rxPop (b : Byte)
  /-- `TxWrite(b)` (R70). -/
  | txWrite (b : Byte)
  /-- `GpioWrite(bank, bit, level)` (R66). -/
  | gpioWrite (bank : OutBank) (bit : BitIx) (level : Level)
  /-- `GpioRead(bank, bit) = level` (R67). -/
  | gpioRead (bank : InBank) (bit : BitIx) (level : Level)
  /-- `AdcRead(ch) = n` (R68). -/
  | adcRead (channel n : Nat)
  /-- `Now() = t` (60_exceptions.md R293). -/
  | nowRead (t : Timestamp)
  /-- `Log(event, arg)` (20_memory.md R71). -/
  | log (code : LogCode) (arg : Byte)
deriving DecidableEq, Repr

/-- The environment: what it holds for the block, and where its next moves come from. No field of it is state of the
block (10_state.md R20, R37); it stands here because the step is a function of one state (notes/assumptions/4.md). -/
structure Env where
  /-- Bytes that have arrived and have not been popped, oldest first (20_memory.md R69; 10_state.md R37(a)). -/
  rx : Str
  /-- The pin levels of bank IN_A now (10_state.md R36). -/
  inA : BitVec 8
  /-- The pin levels of bank IN_B now. -/
  inB : BitVec 8
  /-- What the converter would deliver now; the port passes its low `ADC_BITS` bits (20_memory.md R68). -/
  adcRaw : Nat
  /-- True time in ms; the counter shows it modulo 2^TIME_BITS (60_exceptions.md R293). -/
  time : Nat
  /-- Scripted moves: one is made before each sampling call, the first first. -/
  script : List EnvMove
  /-- After the script: true, every further move is the free value; false, the environment stands still. The same for
  the fates. -/
  free : Bool
  /-- How many free moves have been made. -/
  draws : Nat
  /-- True time of the last poll since reset: the next one follows less than 2^TIME_BITS ms later (46_poll_loop.md
  R266). -/
  lastPoll : Option Nat
  /-- The physical output latch of bank OUT_A, in the expander (10_state.md R37(c)). -/
  latchA : BitVec 8
  /-- The physical output latch of bank OUT_B. -/
  latchB : BitVec 8
  /-- The premise `CAP_OK`: every capability call does its work and returns (20_memory.md R81). -/
  capOk : Bool
  /-- Without `CAP_OK`: the fates of the next capability calls, the first first. -/
  fates : List CallFate
  /-- How many free fates have been drawn, once the list is used up and `free` is on. -/
  fateDraws : Nat
deriving DecidableEq, Repr

/-- The state. Fields down to `escT0` are the spec's registers (10_state.md R20); the rest is configuration, the
Command and the sample in transit, the environment, and what the block has done at its boundary. -/
structure State where
  /-- The parameters; no step changes them (10_state.md R35). -/
  cfg : Config
  /-- `LB` (R21). -/
  lb : Str
  /-- `LB_OVF` (R22). -/
  lbOvf : Bool
  /-- `DB_INIT` (R23). -/
  dbInit : Bool
  /-- `DB_LEVEL` (R24). -/
  dbLevel : Level
  /-- `DB_TCHG` (R25). -/
  dbTchg : Timestamp
  /-- `DB_TSTART` (R26). -/
  dbTstart : Timestamp
  /-- `DB_CONF` (R27). -/
  dbConf : Bool
  /-- `OUT_A` (R29). -/
  outA : BitVec 8
  /-- `OUT_B` (R30). -/
  outB : BitVec 8
  /-- `SEQ` (R31). -/
  seq : Phase
  /-- `ESC_T0` (R32). -/
  escT0 : Timestamp
  /-- The result of the last `feed`: the Command between its emission and its dispatch (R20). -/
  cmd : Option Str
  /-- The level sampled at the start of the debounce phase (45_debounce_edge.md R225). -/
  pollLevel : Level
  /-- The time sampled at the start of the debounce phase (45_debounce_edge.md R225). -/
  pollNow : Timestamp
  /-- A capability call has not returned: the block waits for ever (70_reset_and_hazards.md R334). -/
  hung : Bool
  /-- The environment. -/
  env : Env
  /-- Every call completed so far, in the one total order of 20_memory.md R77, the oldest first. -/
  trace : List Event
deriving DecidableEq, Repr

/-- Why the machine stops. Nothing in the block is fatal (60_exceptions.md R280, R286); what is left is a capability
call that never returns, of which the spec says that it hangs the whole block (70_reset_and_hazards.md R334). -/
inductive Fault where
  /-- Raised by the step of a state that is hung, and by no instruction: the instruction or phase whose call does not
  return ends in that state, with all it did before the call. Safe: the machine stops where the hardware waits for
  ever. -/
  | capabilityHang
deriving DecidableEq, Repr

/-- How far something that makes capability calls has come: to its end with a result, or to a call that never returns,
in the state before that call. -/
inductive Progress (α : Type) where
  | goes (a : α)
  | hangs (s : State)
deriving DecidableEq, Repr

/-- Why an instruction has no meaning. -/
inductive Refusal where
  /-- Raised by `exec` for an instruction whose meaning is not written. Safe. -/
  | notModelled (mnemonic : String)
  /-- Raised by `outOn` and `outOff` with a number outside 1 to 11, which no decoding yields: `relay_map` is undefined
  there and never applied (20_memory.md R62). Safe. -/
  | relayIdUndefined
  /-- Raised by `inRead` with a number outside 1 to 8, which no decoding yields: `input_map` is undefined there and
  never applied (20_memory.md R63). Safe. -/
  | inputIdUndefined
deriving DecidableEq, Repr

/-- The registers that the spec leaves unspecified at reset (10_state.md R24 to R26, R30, R32), and the model's own
sample registers. -/
structure Unspecified where
  dbLevel : Level
  dbTchg : Timestamp
  dbTstart : Timestamp
  escT0 : Timestamp
  /-- `OUT_B[7:3]`. -/
  outBHigh : BitVec 5
  pollLevel : Level
  pollNow : Timestamp
deriving DecidableEq, Repr

/-- The values `State.reset` takes where the spec gives none (DESIGN CHOICE, notes/assumptions/3.md). -/
def Unspecified.zero : Unspecified where
  dbLevel := .low
  dbTchg := 0
  dbTstart := 0
  escT0 := 0
  outBHigh := 0
  pollLevel := .low
  pollNow := 0

/-- The environment before its first move: nothing has arrived, and everything it does is free (DESIGN CHOICE,
notes/assumptions/4.md). The output latches hold what `State.resetWith` gives their relay bits, and 0. -/
def Env.initial : Env where
  rx := []
  inA := 0
  inB := 0
  adcRaw := 0
  time := 0
  script := []
  free := true
  draws := 0
  lastPoll := none
  latchA := 0
  latchB := 0
  capOk := true
  fates := []
  fateDraws := 0

/-- Bank B with its relay bits 2 to 0 as `RELAY_RESET` says and the other bits as given. -/
def resetB (c : Config) (high : BitVec 5) : BitVec 8 := high ++ c.relayReset.extractLsb' 8 3

/-- What a reset and the bring-up after it (70_reset_and_hazards.md R322, R324) do outside the block: the relays' bits of
the output latches get `RELAY_RESET`, and there is no last poll. -/
def Env.bringUp (e : Env) (c : Config) : Env :=
  { e with lastPoll := none, latchA := c.relayReset.setWidth 8, latchB := resetB c (e.latchB.extractLsb' 3 5) }

/-- The state after reset and bring-up (70_reset_and_hazards.md R320, 10_state.md R40), for any configuration, any values
of the unspecified registers (of `TIME_BITS` bits each timestamp), and whatever the outside holds. -/
def State.resetWith (c : Config) (u : Unspecified) (e : Env) (tr : List Event) : State where
  cfg := c
  lb := []
  lbOvf := false
  dbInit := false
  dbLevel := u.dbLevel
  dbTchg := u.dbTchg % 2 ^ c.timeBits
  dbTstart := u.dbTstart % 2 ^ c.timeBits
  dbConf := false
  outA := c.relayReset.setWidth 8
  outB := resetB c u.outBHigh
  seq := .drain
  escT0 := u.escT0 % 2 ^ c.timeBits
  cmd := none
  pollLevel := u.pollLevel
  pollNow := u.pollNow % 2 ^ c.timeBits
  hung := false
  env := e.bringUp c
  trace := tr

/-- The machine right after power-on reset, in the reference configuration. -/
def State.reset : State := State.resetWith Config.reference Unspecified.zero Env.initial []

/-- A reset of a running machine, an event of the outside that no step takes: the registers go to their reset values,
and the outside world (arrived bytes, pins, time) and what it has seen stay (70_reset_and_hazards.md R320, R322,
R323). DESIGN CHOICE (notes/assumptions/15.md): it comes between steps only, so that a response, an escalation text or
a GPIO write is done whole or not at all, where `rst_n` may cut one off at any clock and the spec does not say what is
then left of it. -/
def State.assertReset (s : State) (u : Unspecified) : State := State.resetWith s.cfg u s.env s.trace

end Sys2Proof.Machine
end

