-- ==== Sys2Proof/Machine/Operands.lean ====
section
/-! DEFINITION. The operand maps of the block (relay and input numbers to banks and bits), the values of names on the
interface's wires, bit access within a bank, and the decimal response. -/

namespace Sys2Proof.Machine

/-! ## Values on the wires -/

/-- LOW = 0, HIGH = 1 (00_scope.md R15). -/
def levelBit : Level → Bool
  | .low => false
  | .high => true

def bitLevel (b : Bool) : Level := if b then .high else .low

/-- `gpio_bank` of an output bank (20_memory.md R61). -/
def outBankCode : OutBank → BitVec 2
  | .outA => 0
  | .outB => 1

/-- `gpio_bank` of an input bank (20_memory.md R61). -/
def inBankCode : InBank → BitVec 2
  | .inA => 2
  | .inB => 3

/-- `log_code` (60_exceptions.md R285). -/
def logCodeNumber : LogCode → BitVec 4
  | .hardcheckRx => 0x1
  | .outRange => 0x2
  | .unknownCmd => 0x3
  | .inputState => 0x4
  | .lineOverflow => 0x5

/-! ## Bits of a bank -/

/-- The level at a bit of a bank (00_scope.md R14: bit 0 is the least significant). -/
def bankLevel (v : BitVec 8) (i : BitIx) : Level := bitLevel (v.getLsbD i.val)

/-- A bank with one bit set to a level and every other bit kept (20_memory.md R66). -/
def setBankLevel (v : BitVec 8) (i : BitIx) (l : Level) : BitVec 8 :=
  match l with
  | .high => v ||| (1#8 <<< i.val)
  | .low => v &&& ~~~(1#8 <<< i.val)

/-! ## The mappers -/

/-- `relay_map` (20_memory.md R62), none where it is undefined. -/
def relayMap (id : Nat) : Option (OutBank × BitIx) :=
  if 1 ≤ id ∧ id ≤ 8 then some (.outA, Fin.ofNat 8 (id - 1))
  else if 9 ≤ id ∧ id ≤ 11 then some (.outB, Fin.ofNat 8 (id - 9))
  else none

/-- `input_map` (20_memory.md R63), none where it is undefined. -/
def inputMap (id : Nat) : Option (InBank × BitIx) :=
  if 1 ≤ id ∧ id ≤ 8 then some (.inA, Fin.ofNat 8 (id - 1)) else none

/-- Active-low: on is LOW, off is HIGH (42_relay_controller.md R182). -/
def relayLevel (on : Bool) : Level := if on then .low else .high

/-! ## Responses and log arguments -/

/-- A decimal digit of n as a byte: the one of weight d. -/
def decimalByte (n d : Nat) : Byte := BitVec.ofNat 8 (0x30 + n / d % 10)

/-- `fmt4(n)`, thousands first (30_encoding.md R109). -/
def fmt4 (n : Nat) : Str := [decimalByte n 1000, decimalByte n 100, decimalByte n 10, decimalByte n 1]

/-- The response to an input read, CR included (43_input_reader.md R196). -/
def inputResponse (l : Level) : Str :=
  match l with
  | .low => textOn ++ [charCR]
  | .high => textOff ++ [charCR]

/-- The argument of INPUT_STATE: bit 7 is 1 for active (43_input_reader.md R197). -/
def inputLogArg (id : Nat) (l : Level) : Byte :=
  match l with
  | .low => BitVec.ofNat 8 id ||| 0x80#8
  | .high => BitVec.ofNat 8 id

/-- What the escalation transmits after its pause: `##hardcheck` and CR (45_debounce_edge.md R233). -/
def escalationText : Str := textHardcheck ++ [charCR]

end Sys2Proof.Machine
end

