-- ==== Sys2Proof/Machine/Flags.lean ====
section
/-! DEFINITION. The conditions the block computes: elapsed time, the three signals of the edge detector, the condition
vector of a poll, room in the line buffer, and the view of the debounce registers as the source's named states. -/

namespace Sys2Proof.Machine

/-- `elapsed(a, b) = (a - b) mod 2^w`, w being `TIME_BITS`: the difference is taken exactly and narrowed then
(00_scope.md R16). -/
def elapsed (w : Nat) (a b : Timestamp) : Nat := (((a : Int) - (b : Int)) % ((2 ^ w : Nat) : Int)).toNat

/-- RC's "level changed from last poll" (45_debounce_edge.md R235). -/
def State.edge (s : State) : Bool := s.dbInit && decide (s.pollLevel ≠ s.dbLevel)

/-- More than DEBOUNCE_DELAY since the last accepted change; "exceeds" is strict (45_debounce_edge.md R236). -/
def State.pastDebounce (s : State) : Bool := decide (s.cfg.debounceDelay < elapsed s.cfg.timeBits s.pollNow s.dbTchg)

/-- More than STABLE_TIME since the start of the stretch; "exceeds" is strict (45_debounce_edge.md R236). -/
def State.pastStable (s : State) : Bool := decide (s.cfg.stableTime < elapsed s.cfg.timeBits s.pollNow s.dbTstart)

/-- RC's "accept the change" (45_debounce_edge.md R235). -/
def State.accept (s : State) : Bool := s.edge && s.pastDebounce

/-- The condition of the escalation (45_debounce_edge.md R235). -/
def State.fire (s : State) : Bool :=
  s.dbInit && decide (s.pollLevel = s.dbLevel) && s.pastStable && !s.dbConf

/-- The vector `ev[4:0]` (30_encoding.md R114). Before the first poll the other four conditions are not computed. -/
def State.ev (s : State) : BitVec 5 :=
  if s.dbInit then
    BitVec.ofBool true ++ BitVec.ofBool (decide (s.pollLevel ≠ s.dbLevel)) ++ BitVec.ofBool s.pastDebounce ++
      BitVec.ofBool s.pastStable ++ BitVec.ofBool s.dbConf
  else 0

/-- The line buffer has no room: not (`LINE_MAX = none` or `len(LB) < LINE_MAX`) (40_line_assembler.md R133, R134). -/
def State.lbFull (s : State) : Bool :=
  match s.cfg.lineMax with
  | none => false
  | some m => decide (m ≤ s.lb.length)

/-- The view of the registers as one of the three states (10_state.md R28). -/
def State.dbView (s : State) : DbView :=
  if !s.dbInit then .uninit else if s.dbConf then .confirmed else .pending

end Sys2Proof.Machine
end

