-- ==== Sys2Proof/Machine/Ops.lean ====
section
/-! DEFINITION. The primitives of 00_scope.md R17 as operations on State, the handlers' shared operations, and the
escalation: its entry (the nearest thing to taking an exception, 60_exceptions.md R289) and the way back to the poll
loop. -/

namespace Sys2Proof.Machine

/-! ## The environment -/

/-- True time after dt ms more. It does not reach the wrap period after the last poll, since the next poll follows
before (46_poll_loop.md R266; notes/assumptions/11.md). -/
def Env.timeAfter (e : Env) (w dt : Nat) : Nat :=
  match e.lastPoll with
  | none => e.time + dt
  | some p => min (e.time + dt) (max e.time (p + 2 ^ w - 1))

/-- The environment makes a move: time passes, bytes arrive behind those that wait, the inputs change. -/
def Env.apply (e : Env) (w : Nat) (m : EnvMove) : Env :=
  { e with rx := e.rx ++ m.arrive, inA := m.inA, inB := m.inB, adcRaw := m.adcRaw, time := e.timeAfter w m.dt }

/-- What happens before a sampling call: the next scripted move, then free moves or none (20_memory.md R79: inputs are
read at the instant of the call). -/
def Env.tick (e : Env) (w : Nat) : Env :=
  match e.script with
  | m :: rest => { e.apply w m with script := rest }
  | [] => if e.free then { e.apply w (Config.freeMove e.draws) with draws := e.draws + 1 } else e

/-- The levels of an input bank. -/
def Env.pins (e : Env) : InBank → BitVec 8
  | .inA => e.inA
  | .inB => e.inB

/-- The millisecond counter: true time modulo 2^w, w being `TIME_BITS` (60_exceptions.md R293). -/
def Env.counter (e : Env) (w : Nat) : Timestamp := e.time % 2 ^ w

/-- The transport brings a transmitted byte back if `LOOPBACK`, at once (20_memory.md R80; DEDUCED,
notes/assumptions/13.md). -/
def Env.echo (e : Env) (loopback : Bool) (b : Byte) : Env :=
  if loopback then { e with rx := e.rx ++ [b] } else e

/-- An output bit of the expander takes a level. -/
def Env.setLatch (e : Env) (bank : OutBank) (bit : BitIx) (l : Level) : Env :=
  match bank with
  | .outA => { e with latchA := setBankLevel e.latchA bit l }
  | .outB => { e with latchB := setBankLevel e.latchB bit l }

/-- The fate of the next capability call: it succeeds under `CAP_OK`, else it is scripted, else free. -/
def Env.fate (e : Env) : CallFate :=
  if e.capOk then .done
  else
    match e.fates with
    | f :: _ => f
    | [] => if e.free then Config.freeFate e.fateDraws else .done

/-- The environment after that fate is drawn. -/
def Env.drawFate (e : Env) : Env :=
  if e.capOk then e
  else
    match e.fates with
    | _ :: rest => { e with fates := rest }
    | [] => if e.free then { e with fateDraws := e.fateDraws + 1 } else e

def State.tick (s : State) : State := { s with env := s.env.tick s.cfg.timeBits }

def State.drawFate (s : State) : State := { s with env := s.env.drawFate }

/-! ## What a primitive does -/

/-- One more completed call at the boundary. -/
def State.emit (s : State) (e : Event) : State := { s with trace := s.trace ++ [e] }

/-- `RxPop()`: the oldest byte b is removed, `rest` stays (20_memory.md R69). -/
def State.rxPop (s : State) (b : Byte) (rest : Str) : State :=
  ({ s with env := { s.env with rx := rest } }).emit (.rxPop b)

/-- A byte appended to the TX stream, and heard under `LOOPBACK` (20_memory.md R70, R80). -/
def State.txWrite (s : State) (b : Byte) : State :=
  ({ s with env := s.env.echo s.cfg.loopback b }).emit (.txWrite b)

/-- The shadow register of the bank gets the level at the bit (20_memory.md R66). -/
def State.gpioWrite (s : State) (bank : OutBank) (bit : BitIx) (l : Level) : State :=
  (match bank with
    | .outA => { s with outA := setBankLevel s.outA bit l }
    | .outB => { s with outB := setBankLevel s.outB bit l }).emit (.gpioWrite bank bit l)

def State.setLatch (s : State) (bank : OutBank) (bit : BitIx) (l : Level) : State :=
  { s with env := s.env.setLatch bank bit l }

/-- The value `Now()` returns (60_exceptions.md R293). -/
def State.clockNow (s : State) : Timestamp := (s.env.tick s.cfg.timeBits).counter s.cfg.timeBits

/-- The state after `Now()`. -/
def State.nowRead (s : State) : State := s.tick.emit (.nowRead s.clockNow)

/-- `Log(event, arg)` (20_memory.md R71). -/
def State.logEvent (s : State) (c : LogCode) (arg : Byte) : State := s.emit (.log c arg)

/-! ## Capability calls

A call succeeds, fails unnoticed, or never returns (20_memory.md R81, 60_exceptions.md R283, 70_reset_and_hazards.md
R334; notes/assumptions/6.md). -/

def Progress.andThen {α β : Type} (p : Progress α) (f : α → Progress β) : Progress β :=
  match p with
  | .goes a => f a
  | .hangs s => .hangs s

/-- The end of an instruction or phase: its last state, or the hung state it is left in. -/
def Progress.last (p : Progress State) : State :=
  match p with
  | .goes s => s
  | .hangs s => { s with hung := true }

/-- One capability call: what it does is told by `f` from none where it succeeds, and from the garbage where it fails. -/
def State.call {α : Type} (s : State) (f : Option Nat → State → α) : Progress α :=
  match s.env.fate with
  | .done => .goes (f none s.drawFate)
  | .failed g => .goes (f (some g) s.drawFate)
  | .hangs => .hangs s.drawFate

/-- The level a read delivers: the pin's, or any where it fails (93_implementation_defined.md U3). -/
def readLevel (pin : Level) : Option Nat → Level
  | none => pin
  | some g => bitLevel (decide (g % 2 = 1))

/-- `GpioWrite(bank, bit, level)` (20_memory.md R66): a failed one leaves the latch, and the shadow register is written
all the same (60_exceptions.md R283). -/
def State.writePin (s : State) (bank : OutBank) (bit : BitIx) (l : Level) : Progress State :=
  s.call fun bad t =>
    match bad with
    | none => (t.setLatch bank bit l).gpioWrite bank bit l
    | some _ => t.gpioWrite bank bit l

/-- `GpioRead(bank, bit)`: the pin's level at the instant of the call (20_memory.md R67). -/
def State.readPin (s : State) (bank : InBank) (bit : BitIx) : Progress (Level × State) :=
  s.tick.call fun bad t =>
    let l := readLevel (bankLevel (t.env.pins bank) bit) bad
    (l, t.emit (.gpioRead bank bit l))

/-- `AdcRead(ADC_CHANNEL)`: a count of `ADC_BITS` bits (20_memory.md R68; notes/assumptions/8.md). -/
def State.readAdc (s : State) : Progress (Nat × State) :=
  s.tick.call fun bad t =>
    let n := bad.getD t.env.adcRaw % 2 ^ t.cfg.adcBits.val
    (n, t.emit (.adcRead t.cfg.adcChannel n))

/-- `TxWrite(b)` (20_memory.md R70): the byte of a failed one stands in the stream, which is what the block offers
(93_implementation_defined.md U21), and does not come back. -/
def State.sendByte (s : State) (b : Byte) : Progress State :=
  s.call fun bad t =>
    match bad with
    | none => t.txWrite b
    | some _ => t.emit (.txWrite b)

/-- `TxWriteStr(s)`: each byte in offset order (00_scope.md R17). -/
def State.sendStr (s : State) : Str → Progress State
  | [] => .goes s
  | b :: rest => (s.sendByte b).andThen fun t => t.sendStr rest

/-! ## What has been done -/

/-- The TX stream (20_memory.md R70). -/
def State.tx (s : State) : Str :=
  s.trace.filterMap fun
    | .txWrite b => some b
    | _ => none

/-- The log stream (20_memory.md R71). -/
def State.log (s : State) : List (LogCode × Byte) :=
  s.trace.filterMap fun
    | .log c a => some (c, a)
    | _ => none

/-- The level an output bit was last written (10_state.md R29, R30). -/
def State.outLevel (s : State) (bank : OutBank) (bit : BitIx) : Level :=
  match bank with
  | .outA => bankLevel s.outA bit
  | .outB => bankLevel s.outB bit

/-- The level the expander drives at an output bit. -/
def Env.latchLevel (e : Env) (bank : OutBank) (bit : BitIx) : Level :=
  match bank with
  | .outA => bankLevel e.latchA bit
  | .outB => bankLevel e.latchB bit

/-! ## The line assembler -/

/-- The terminator arm of `feed` (40_line_assembler.md R130): an over-long line is discarded (R135), a non-empty one
becomes a Command, an empty one nothing. -/
def State.feedTerminator (s : State) : State :=
  if s.lbOvf then ({ s with lb := [], lbOvf := false, cmd := none }).logEvent .lineOverflow 0
  else if 0 < s.lb.length then { s with lb := [], cmd := some (trim s.cfg.trimSet s.lb) }
  else { s with cmd := none }

/-- The data arm of `feed` (40_line_assembler.md R133, R134). -/
def State.feedData (s : State) (b : Byte) : State :=
  if s.lbFull then { s with lbOvf := true, cmd := none }
  else { s with lb := s.lb ++ [b], cmd := none }

/-! ## The handlers -/

/-- `setRelay(id, on)` (42_relay_controller.md R180). -/
def State.setRelay (s : State) (id : Nat) (on : Bool) : Host.Outcome State Fault Refusal :=
  match relayMap id with
  | some (bank, bit) => .next (s.writePin bank bit (relayLevel on)).last
  | none => .refused .relayIdUndefined

/-- The body of `readInput` on a mapped bit (43_input_reader.md R195). -/
def State.answerInput (s : State) (id : Nat) (bank : InBank) (bit : BitIx) : Progress State :=
  (s.readPin bank bit).andThen fun (level, t) =>
    (t.sendStr (inputResponse level)).andThen fun u => .goes (u.logEvent .inputState (inputLogArg id level))

/-- `readInput(id)` (43_input_reader.md R195). -/
def State.readInput (s : State) (id : Nat) : Host.Outcome State Fault Refusal :=
  match inputMap id with
  | some (bank, bit) => .next (s.answerInput id bank bit).last
  | none => .refused .inputIdUndefined

/-- `sampleAnalog()` (44_analog_sampler.md R210). -/
def State.sampleAnalog (s : State) : Progress State :=
  s.readAdc.andThen fun (n, t) => t.sendStr (fmt4 n ++ [charCR])

/-! ## The escalation -/

/-- The capture of the time in `ESC_T0`, after which the pause runs (10_state.md R32). -/
def State.beginPause (s : State) : State := { s.nowRead with escT0 := s.clockNow, seq := .escWait }

/-- Escalation entry (60_exceptions.md R289, 46_poll_loop.md R267): nothing is saved; the lone CR is written, the time
is captured in `ESC_T0` after it, and control goes to `ESC_WAIT`. -/
def State.escalate (s : State) : Progress State := (s.sendByte charCR).andThen fun t => .goes t.beginPause

/-- One look at the clock in `ESC_WAIT`: the phase ends at the first time that is `ESC_DELAY` or more after `ESC_T0`
(10_state.md R32). -/
def State.escWaitPoll (s : State) : State :=
  if s.cfg.escDelay ≤ elapsed s.cfg.timeBits s.clockNow s.escT0 then { s.nowRead with seq := .escSend } else s.nowRead

/-- `ESC_SEND`: the twelve bytes, then back to `DRAIN` (46_poll_loop.md R267). -/
def State.escSendText (s : State) : Progress State :=
  (s.sendStr escalationText).andThen fun t => .goes { t with seq := .drain }

end Sys2Proof.Machine
end

