-- ==== Sys2Proof/Machine/Commands.lean ====
section
/-! DEFINITION. The command instructions: 41_command_dispatcher.md with the handlers of 42, 43 and 44. -/

namespace Sys2Proof.Machine

/-- `HARDCHECK`: the receipt is logged, nothing else (41_command_dispatcher.md R151). -/
def execHardcheck (s : State) : Host.Outcome State Fault Refusal := .next (s.logEvent .hardcheckRx 0)

/-- `OUT_ON` (R152). -/
def execOutOn (id : Nat) (s : State) : Host.Outcome State Fault Refusal := s.setRelay id true

/-- `OUT_OFF` (R153). -/
def execOutOff (id : Nat) (s : State) : Host.Outcome State Fault Refusal := s.setRelay id false

/-- `OUT_RANGE`: log only (R154). -/
def execOutRange (n : Nat) (s : State) : Host.Outcome State Fault Refusal :=
  .next (s.logEvent .outRange (BitVec.ofNat 8 n))

/-- `IN` (R155). -/
def execInRead (id : Nat) (s : State) : Host.Outcome State Fault Refusal := s.readInput id

/-- `IN_RANGE`: nothing, not even a log event (R156). -/
def execInRange (_n : Nat) (s : State) : Host.Outcome State Fault Refusal := .next s

/-- `AD` (R157). -/
def execAd (s : State) : Host.Outcome State Fault Refusal := .next s.sampleAnalog.last

/-- `UNKNOWN`: the length is logged, nothing else (R158). -/
def execUnknown (text : Str) (s : State) : Host.Outcome State Fault Refusal :=
  .next (s.logEvent .unknownCmd (BitVec.ofNat 8 text.length))

end Sys2Proof.Machine
end

