-- ==== Sys2Proof/Machine/Debounce.lean ====
section
/-! DEFINITION. The five cases of the debounce step: 45_debounce_edge.md. Each takes the sample `pollLevel`, `pollNow`
as its operands and ends the debounce phase (46_poll_loop.md R267). -/

namespace Sys2Proof.Machine

/-- `DB_FIRST` (45_debounce_edge.md R227). -/
def execDbFirst (s : State) : Host.Outcome State Fault Refusal :=
  .next { s with dbLevel := s.pollLevel, dbTchg := s.pollNow, dbTstart := s.pollNow, dbInit := true, seq := .drain }

/-- `DB_ACCEPT` (R230). -/
def execDbAccept (s : State) : Host.Outcome State Fault Refusal :=
  .next { s with dbTchg := s.pollNow, dbTstart := s.pollNow, dbConf := false, dbLevel := s.pollLevel, seq := .drain }

/-- `DB_REJECT` (R231). -/
def execDbReject (s : State) : Host.Outcome State Fault Refusal :=
  .next { s with dbLevel := s.pollLevel, seq := .drain }

/-- `DB_FIRE` (R228): the flag is set, then the escalation is entered (R233). -/
def execDbFire (s : State) : Host.Outcome State Fault Refusal :=
  .next ({ s with dbConf := true }).escalate.last

/-- `DB_HOLD` (R229). -/
def execDbHold (s : State) : Host.Outcome State Fault Refusal := .next { s with seq := .drain }

end Sys2Proof.Machine
end

