-- ==== Sys2Proof/Machine/LineAssembler.lean ====
section
/-! DEFINITION. The byte instructions: 40_line_assembler.md. -/

namespace Sys2Proof.Machine

/-- `BYTE_CR` (40_line_assembler.md R131). -/
def execByteCr (s : State) : Host.Outcome State Fault Refusal := .next s.feedTerminator

/-- `BYTE_LF`: identical to `BYTE_CR` (R132). -/
def execByteLf (s : State) : Host.Outcome State Fault Refusal := .next s.feedTerminator

/-- `BYTE_DATA` (R133). -/
def execByteData (b : Byte) (s : State) : Host.Outcome State Fault Refusal := .next (s.feedData b)

end Sys2Proof.Machine
end

