-- ==== Sys2Proof/Machine/Dispatch.lean ====
section
/-! DEFINITION. exec: one arm per constructor of Instr. -/

namespace Sys2Proof.Machine

def exec (i : Instr) (s : State) : Host.Outcome State Fault Refusal :=
  match i with
  | .byteCr => Sys2Proof.Machine.execByteCr s
  | .byteLf => Sys2Proof.Machine.execByteLf s
  | .byteData b => Sys2Proof.Machine.execByteData b s
  | .hardcheck => Sys2Proof.Machine.execHardcheck s
  | .outOn id => Sys2Proof.Machine.execOutOn id s
  | .outOff id => Sys2Proof.Machine.execOutOff id s
  | .outRange n => Sys2Proof.Machine.execOutRange n s
  | .inRead id => Sys2Proof.Machine.execInRead id s
  | .inRange n => Sys2Proof.Machine.execInRange n s
  | .ad => Sys2Proof.Machine.execAd s
  | .unknown text => Sys2Proof.Machine.execUnknown text s
  | .dbFirst => Sys2Proof.Machine.execDbFirst s
  | .dbAccept => Sys2Proof.Machine.execDbAccept s
  | .dbReject => Sys2Proof.Machine.execDbReject s
  | .dbFire => Sys2Proof.Machine.execDbFire s
  | .dbHold => Sys2Proof.Machine.execDbHold s

end Sys2Proof.Machine
end

