-- ==== Sys2Proof/Machine/Sequencer.lean ====
section
/-! DEFINITION. The poll loop (46_poll_loop.md R260, R267), cut into the pieces a step is made of: what the present
phase selects, and how a table word is placed where the next step finds it. -/

namespace Sys2Proof.Machine

/-- What the present phase selects: an instruction, with the state after its operands are fetched; a move of the
sequencer's own; or nothing, for the block hangs. -/
inductive Fetched where
  | run (i : Instr) (s : State)
  | move (s : State)
  | stuck

/-- The drain phase (46_poll_loop.md R261, R262): a Command in transit is dispatched first; else the oldest available
byte is popped and fed; else the debounce phase begins. -/
def State.fetchDrain (s : State) : Fetched :=
  match s.cmd with
  | some c => .run (decodeCommand s.cfg c) { s with cmd := none }
  | none =>
    match s.tick.env.rx with
    | b :: rest => .run (decodeByte b) (s.tick.rxPop b rest)
    | [] => .move { s.tick with seq := .debounce }

/-- The time of the sample: the counter is read, and the poll marked as the last one. -/
def State.sampleTime (s : State) : State :=
  let t := s.nowRead
  { t with pollNow := s.clockNow, env := { t.env with lastPoll := some t.env.time } }

/-- The sample of the debounce phase: the button's level, then the time, once each (46_poll_loop.md R263). -/
def State.sample (s : State) : Progress State :=
  (s.readPin s.cfg.buttonBank s.cfg.buttonBit).andThen fun (level, t) =>
    .goes ({ t with pollLevel := level }).sampleTime

/-- The debounce phase: sample, then the case the condition vector selects. -/
def State.fetchDebounce (s : State) : Fetched :=
  match s.sample with
  | .goes t => .run (decodePoll t.ev) t
  | .hangs t => .move { t with hung := true }

/-- What the present phase selects (46_poll_loop.md R267). -/
def State.fetchPhase (s : State) : Fetched :=
  match s.seq with
  | .drain => s.fetchDrain
  | .debounce => s.fetchDebounce
  | .escWait => .move s.escWaitPoll
  | .escSend => .move s.escSendText.last

/-- What the step does. -/
def State.fetch (s : State) : Fetched := if s.hung then .stuck else s.fetchPhase

/-! ## Placing a table word -/

/-- A move that leaves the environment as it is. -/
def Env.stillMove (e : Env) : EnvMove := { dt := 0, arrive := [], inA := e.inA, inB := e.inB, adcRaw := e.adcRaw }

/-- The byte is the oldest available one. -/
def State.placeByte (s : State) (b : Byte) : State :=
  { s with seq := .drain, cmd := none,
           env := { s.env with rx := b :: s.env.rx, script := s.env.stillMove :: s.env.script } }

/-- The Command is in transit. -/
def State.placeCommand (s : State) (c : Str) : State := { s with seq := .drain, cmd := some c }

/-- The debounce registers are such that the poll's condition vector is `ev`, the environment standing still: the
level read is `DB_LEVEL` or its opposite, and each timestamp lies 0 or 2^TIME_BITS - 1 ms back. -/
def State.placePoll (s : State) (ev : BitVec 5) : State :=
  let w := s.cfg.timeBits
  let back (far : Bool) : Timestamp := if far then (s.env.counter w + 1) % 2 ^ w else s.env.counter w
  let pin := bankLevel (s.env.pins s.cfg.buttonBank) s.cfg.buttonBit
  { s with seq := .debounce, dbInit := ev.getLsbD 4,
           dbLevel := if ev.getLsbD 3 then bitLevel (!levelBit pin) else pin,
           dbTchg := back (ev.getLsbD 2), dbTstart := back (ev.getLsbD 1), dbConf := ev.getLsbD 0,
           env := { s.env with script := s.env.stillMove :: s.env.stillMove :: s.env.script } }

def State.place (s : State) : Code → State
  | .byte b => s.placeByte b
  | .command c => s.placeCommand c
  | .poll ev => s.placePoll ev

end Sys2Proof.Machine
end

