-- ==== Sys2Proof/Machine/Step.lean ====
section
/-! DEFINITION. One step: what the present phase selects is done. -/

namespace Sys2Proof.Machine

def step (s : State) : Host.Outcome State Fault Refusal :=
  match s.fetch with
  | .run i t => exec i t
  | .move t => .next t
  | .stuck => .fault .capabilityHang

/-- The state with a word of spec/opcode_table.json placed where the next step finds it (notes/assumptions/9.md). -/
def State.withFetchWord (s : State) (nbits w : Nat) : State := s.place (tableCode nbits w)

end Sys2Proof.Machine
end

