-- ==== Sys2Proof/Machine/Pseudocode.lean ====
section
/-! DEFINITION. The spec's pseudocode at the transaction level, written as the spec writes it and without the
instructions: `feed` (40_line_assembler.md R130), `dispatch` (41_command_dispatcher.md R150), `db_step`
(45_debounce_edge.md R234), `escalate` (R233) and `poll_cycle` (46_poll_loop.md R260). The step never calls them; the
statements hold the step against them. Loops run on fuel and answer none when it ends, or when a call hangs. -/

namespace Sys2Proof.Machine.Pseudocode

/-- `feed(b)`: the state after it and the optional Command (R130). -/
def feed (b : Byte) (s : State) : State × Option Str :=
  if b = 0x0D ∨ b = 0x0A then
    if s.lbOvf then (({ s with lb := [], lbOvf := false }).logEvent .lineOverflow 0, none)
    else if s.lb.length > 0 then ({ s with lb := [] }, some (trim s.cfg.trimSet s.lb))
    else (s, none)
  else
    if s.lbFull then ({ s with lbOvf := true }, none)
    else ({ s with lb := s.lb ++ [b] }, none)

/-- `dispatch(cmd)` (R150). -/
def dispatch (cmd : Str) (s : State) : Host.Outcome State Fault Refusal :=
  if cmd = textHardcheck then .next (s.logEvent .hardcheckRx 0)
  else if startsWith cmd textOut = true ∧ cmd.length ≥ 8 then
    let n := dec2 s.cfg (byteAt cmd 4) (byteAt cmd 5)
    if 1 ≤ n ∧ n ≤ 11 then
      if endsWith cmd textOn then s.setRelay n true else s.setRelay n false
    else .next (s.logEvent .outRange (BitVec.ofNat 8 n))
  else if startsWith cmd textIn = true ∧ cmd.length ≥ 5 then
    let n := dec2 s.cfg (byteAt cmd 3) (byteAt cmd 4)
    if 1 ≤ n ∧ n ≤ 8 then s.readInput n else .next s
  else if cmd = textAd then .next s.sampleAnalog.last
  else .next (s.logEvent .unknownCmd (BitVec.ofNat 8 cmd.length))

/-- `db_step(level, now)`: the state after it, and whether it returns the escalation (R234). -/
def dbStep (level : Level) (now : Timestamp) (s : State) : State × Bool :=
  if s.dbInit = false then
    ({ s with dbLevel := level, dbTchg := now, dbTstart := now, dbInit := true }, false)
  else if level ≠ s.dbLevel then
    if elapsed s.cfg.timeBits now s.dbTchg > s.cfg.debounceDelay then
      ({ s with dbTchg := now, dbTstart := now, dbConf := false, dbLevel := level }, false)
    else ({ s with dbLevel := level }, false)
  else if elapsed s.cfg.timeBits now s.dbTstart > s.cfg.stableTime ∧ s.dbConf = false then
    ({ s with dbConf := true }, true)
  else (s, false)

/-- The drain phase: the `while` loop of `poll_cycle` (R260). -/
def drainPhase : Nat → State → Option State
  | 0, _ => none
  | k + 1, s =>
    match s.tick.env.rx with
    | [] => some s.tick
    | b :: rest =>
      match feed b (s.tick.rxPop b rest) with
      | (s1, none) => drainPhase k s1
      | (s1, some c) =>
        match dispatch c s1 with
        | .next s2 => if s2.hung then none else drainPhase k s2
        | _ => none

/-- `Delay(ESC_DELAY)` from the time in `ESC_T0` (R233). -/
def delay : Nat → State → Option State
  | 0, _ => none
  | k + 1, s =>
    if elapsed s.cfg.timeBits s.clockNow s.escT0 ≥ s.cfg.escDelay then some s.nowRead else delay k s.nowRead

/-- A call or a string of calls that comes to its end. -/
def ended {α : Type} : Progress α → Option α
  | .goes a => some a
  | .hangs _ => none

/-- `escalate()` (R233), with `ESC_T0` captured once the lone CR is written. -/
def escalate (k : Nat) (s : State) : Option State := do
  let s1 ← ended (s.sendByte 0x0D)
  let s2 ← delay k { s1.nowRead with escT0 := s1.clockNow }
  let s3 ← ended (s2.sendStr textHardcheck)
  ended (s3.sendByte 0x0D)

/-- The debounce phase: sample, `db_step`, and the escalation if it returns one (R260). -/
def debouncePhase (k : Nat) (s : State) : Option State := do
  let s1 ← ended s.sample
  match dbStep s1.pollLevel s1.pollNow s1 with
  | (s2, true) => escalate k s2
  | (s2, false) => some s2

/-- `poll_cycle()` (R260). -/
def pollCycle (k : Nat) (s : State) : Option State := do
  let s1 ← drainPhase k s
  debouncePhase k s1

end Sys2Proof.Machine.Pseudocode
end

