-- ==== Sys2Proof/WellFormed.lean ====
section
/-! DEFINITION. Which instructions are well formed: the operands the spec admits for each row of the opcode table. It
imports the decoder for the literal texts and the formats that the UNKNOWN row excludes. -/

namespace Sys2Proof

/-- The bytes of the canonical texts (30_encoding.md R104), numbers apart. -/
def canonicalBytes : List Byte := textHardcheck ++ textOut ++ textIn ++ textAd ++ textOn ++ textOff

/-- What a configuration is held to beyond the types of its fields: the two delays below 2^TIME_BITS (00_scope.md R5,
R6), `LINE_MAX >= 11` (R11), and no byte of a canonical text in `TRIM_SET`, the reason the spec gives for its set
(92_eei_decisions.md D5; notes/assumptions/10.md). -/
def Config.wf (c : Config) : Bool :=
  decide (c.debounceDelay < 2 ^ c.timeBits) && decide (c.stableTime < 2 ^ c.timeBits) &&
  (match c.lineMax with
    | none => true
    | some m => decide (11 ≤ m)) &&
  c.trimSet.all fun b => !decide (b ∈ canonicalBytes) && !isDigit b

/-- A text the line assembler can hand over as a Command: it holds no terminator and is trimmed (30_encoding.md R93). -/
def properCommand (g : Config) (c : Str) : Bool :=
  c.all (fun b => !isTerminator b) && decide (trim g.trimSet c = c)

/-- The operand checks, row by row. The configuration is looked at for `TRIM_SET` only. -/
def Instr.wf (g : Config) : Instr → Bool
  | .byteCr => true
  | .byteLf => true
  | .byteData b => !isTerminator b
  | .hardcheck => true
  | .outOn n => decide (1 ≤ n ∧ n ≤ 11)
  | .outOff n => decide (1 ≤ n ∧ n ≤ 11)
  | .outRange n => decide (n = 0 ∨ 12 ≤ n ∧ n ≤ 99)
  | .inRead n => decide (1 ≤ n ∧ n ≤ 8)
  | .inRange n => decide (n = 0 ∨ 9 ≤ n ∧ n ≤ 99)
  | .ad => true
  | .unknown c =>
    properCommand g c && !decide (c = textHardcheck) && !isFormatO c && !isFormatI c && !decide (c = textAd)
  | .dbFirst => true
  | .dbAccept => true
  | .dbReject => true
  | .dbFire => true
  | .dbHold => true

/-- A code that reaches the block: every byte and every vector, and every proper Command. -/
def Code.proper (g : Config) : Code → Bool
  | .byte _ => true
  | .command c => properCommand g c
  | .poll _ => true

end Sys2Proof
end

