-- ==== Sys2Proof/Safety.lean ====
section
/-! DEFINITION. The terms the statements use: the invariants of a run, the error conditions, and which instructions a
run executes. -/

namespace Sys2Proof.Machine

/-! ## Invariants (10_state.md R39) -/

/-- (I1) to (I3): no terminator in the buffer, the bound, and an overflow only at the bound. With `LINE_MAX = none` the
last says that `LB_OVF` is constantly 0 (10_state.md R22). -/
structure State.LineInv (s : State) : Prop where
  noTerminator : ∀ b ∈ s.lb, b ≠ 0x0D ∧ b ≠ 0x0A
  bounded : ∀ m, s.cfg.lineMax = some m → s.lb.length ≤ m
  ovfAtBound : s.lbOvf = true → s.cfg.lineMax = some s.lb.length

/-- (I4) and (I5): the flag implies the first poll, and the two timestamps agree after it. -/
structure State.DebounceInv (s : State) : Prop where
  confInit : s.dbConf = true → s.dbInit = true
  oneTime : s.dbInit = true → s.dbTchg = s.dbTstart

/-- The model's own: a Command in transit is a proper one and stands only in the drain phase, and an escalation is
under way only with the flag set (45_debounce_edge.md R233: `DB_CONF` is 1 when the first byte is written). -/
structure State.SequencerInv (s : State) : Prop where
  cmdInDrain : s.cmd ≠ none → s.seq = .drain
  cmdProper : ∀ c, s.cmd = some c → properCommand s.cfg c = true
  escConfirmed : s.seq = .escWait ∨ s.seq = .escSend → s.dbConf = true

/-- Under `CAP_OK` every relay's bit of the expander's latch is what the shadow register says (10_state.md R37(c),
20_memory.md R81). -/
structure State.OutputInv (s : State) : Prop where
  latched : s.env.capOk = true → ∀ id k i, relayMap id = some (k, i) → s.env.latchLevel k i = s.outLevel k i

/-- Every timestamp is one of `TIME_BITS` bits (00_scope.md R16), and the time since the last poll is below the wrap
period (46_poll_loop.md R266). -/
structure State.TimeInv (s : State) : Prop where
  tchg : s.dbTchg < 2 ^ s.cfg.timeBits
  tstart : s.dbTstart < 2 ^ s.cfg.timeBits
  escT0 : s.escT0 < 2 ^ s.cfg.timeBits
  pollNow : s.pollNow < 2 ^ s.cfg.timeBits
  window : ∀ p, s.env.lastPoll = some p → p ≤ s.env.time ∧ s.env.time < p + 2 ^ s.cfg.timeBits

/-- The invariant of a run. -/
structure State.Inv (s : State) : Prop where
  line : s.LineInv
  debounce : s.DebounceInv
  sequencer : s.SequencerInv
  output : s.OutputInv
  time : s.TimeInv

/-! ## Error conditions (60_exceptions.md R281 to R284) -/

inductive ErrorCondition where
  | unknown
  | outRange
  | inRange
  | io
  | lineOvf
deriving DecidableEq, Repr

/-- The condition numbers (60_exceptions.md R281 to R284); no register holds them. -/
def ErrorCondition.number : ErrorCondition → Nat
  | .unknown => 1
  | .outRange => 2
  | .inRange => 3
  | .io => 4
  | .lineOvf => 5

/-- The condition an instruction reports in a state. `io` is raised by nothing (R283). -/
def errorCondition (i : Instr) (s : State) : Option ErrorCondition :=
  match i with
  | .byteCr => if s.lbOvf then some .lineOvf else none
  | .byteLf => if s.lbOvf then some .lineOvf else none
  | .byteData _ => none
  | .hardcheck => none
  | .outOn _ => none
  | .outOff _ => none
  | .outRange _ => some .outRange
  | .inRead _ => none
  | .inRange _ => some .inRange
  | .ad => none
  | .unknown _ => some .unknown
  | .dbFirst => none
  | .dbAccept => none
  | .dbReject => none
  | .dbFire => none
  | .dbHold => none

/-! ## The outside -/

/-- An environment that has been sent some bytes: under `LOOPBACK` they stand at the end of the RX stream
(20_memory.md R80), and nothing else of it has changed. -/
def Env.heard (e : Env) (loopback : Bool) (t : Str) : Env := { e with rx := e.rx ++ if loopback then t else [] }

/-- The events of writing a string (00_scope.md R17). -/
def txEvents (t : Str) : List Event := t.map .txWrite

/-- The calls without the log events, on whose place no claim may depend (20_memory.md R71, 43_input_reader.md R197). -/
def withoutLog (t : List Event) : List Event :=
  t.filter fun
    | .log _ _ => false
    | _ => true

/-! ## Runs -/

/-- The instruction the next step runs, as a list of none or one. -/
def State.fetchedInstr (s : State) : List Instr :=
  match s.fetch with
  | .run i _ => [i]
  | _ => []

/-- The instructions of the next k steps, in order; the list ends where the machine stops. -/
def instrsRun : Nat → State → List Instr
  | 0, _ => []
  | k + 1, s =>
    s.fetchedInstr ++
      match step s with
      | .next t => instrsRun k t
      | _ => []

/-- s with other contents of the debounce registers. -/
def State.withDebounce (s : State) (init : Bool) (level : Level) (tchg tstart : Timestamp) (conf : Bool) : State :=
  { s with dbInit := init, dbLevel := level, dbTchg := tchg, dbTstart := tstart, dbConf := conf }

/-- s with another line buffer and other output registers. -/
def State.withLineAndOutputs (s : State) (lb : Str) (ovf : Bool) (a b : BitVec 8) : State :=
  { s with lb := lb, lbOvf := ovf, outA := a, outB := b }

end Sys2Proof.Machine
end

