-- ==== Sys2Proof/Certificates/Slice0/Obligations.lean ====
section
/-! DEFINITION. The statements for the provers. OBLIGATIONS.json lists them with their rules. -/

open Sys2Proof Sys2Proof.Machine

/-! ## Encoding -/

/-- Decoding what the encoder writes for a well-formed instruction gives it back, in every configuration. -/
def Obligations.DecodeOfEncodeIsIdentity : Prop :=
  ∀ (g : Config) (i : Instr), i.wf g = true → decode g (encode i) = i

/-- A Command as the line assembler hands it over (no terminator in it, trimmed) decodes to a well-formed
instruction. -/
def Obligations.ProperCodeDecodesWellFormed : Prop :=
  ∀ (g : Config) (c : Code), c.proper g = true → (decode g c).wf g = true

/-- 30_encoding.md R91: 0x0D is BYTE_CR, 0x0A is BYTE_LF, each of the other 254 values is BYTE_DATA with itself. -/
def Obligations.ByteClassesDecode : Prop :=
  decodeByte 0x0D#8 = .byteCr ∧ decodeByte 0x0A#8 = .byteLf ∧
    ∀ b : Byte, b ≠ 0x0D#8 → b ≠ 0x0A#8 → decodeByte b = .byteData b

/-- 30_encoding.md R101, 93_implementation_defined.md U2: the two settled cases under either reading, then each reading
of a partly numeric field: under strict_prefix the value of the leading digits, under c_atol also a digit after a byte
of TRIM_SET or a plus sign. That a negative number stands as 0 is log entry 12. -/
def Obligations.NumberFieldValue : Prop :=
  ∀ (g : Config) (c0 c1 : Byte),
    let digit0 := 0x30 ≤ c0.toNat ∧ c0.toNat ≤ 0x39
    let digit1 := 0x30 ≤ c1.toNat ∧ c1.toNat ≤ 0x39
    (digit0 → digit1 → dec2 g c0 c1 = 10 * (c0.toNat - 0x30) + (c1.toNat - 0x30)) ∧
    (¬digit0 → ¬digit1 → dec2 g c0 c1 = 0) ∧
    (digit0 → ¬digit1 → dec2 g c0 c1 = c0.toNat - 0x30) ∧
    (g.numParse = .strictPrefix → ¬digit0 → dec2 g c0 c1 = 0) ∧
    (g.numParse = .cAtol → ¬digit0 → digit1 →
      dec2 g c0 c1 = if c0 ∈ g.trimSet ∨ c0 = 0x2B#8 then c1.toNat - 0x30 else 0)

/-- 30_encoding.md R94: trimming takes a run of TRIM_SET off each end and the longest one, for any TRIM_SET. -/
def Obligations.TrimKeepsExactlyTheMiddle : Prop :=
  ∀ (set : List Byte) (s : Str), ∃ l r : Str, s = l ++ trim set s ++ r ∧
    (∀ b ∈ l, b ∈ set) ∧ (∀ b ∈ r, b ∈ set) ∧
    (∀ b rest, trim set s = b :: rest → b ∉ set) ∧ (∀ front b, trim set s = front ++ [b] → b ∉ set)

/-- 30_encoding.md R96, R102, R103: a text `$out`, two bytes and two or more further bytes is of format O whatever the
bytes; its number selects the range row or, in range, the suffix selects on or off. -/
def Obligations.OutTextsDecode : Prop :=
  ∀ (g : Config) (a b : Byte) (r : Str), 2 ≤ r.length →
    (¬(1 ≤ dec2 g a b ∧ dec2 g a b ≤ 11) →
      decodeCommand g ([0x24#8, 0x6F#8, 0x75#8, 0x74#8, a, b] ++ r) = .outRange (dec2 g a b)) ∧
    (1 ≤ dec2 g a b → dec2 g a b ≤ 11 → (∃ q : Str, r = q ++ [0x6F#8, 0x6E#8]) →
      decodeCommand g ([0x24#8, 0x6F#8, 0x75#8, 0x74#8, a, b] ++ r) = .outOn (dec2 g a b)) ∧
    (1 ≤ dec2 g a b → dec2 g a b ≤ 11 → (¬∃ q : Str, r = q ++ [0x6F#8, 0x6E#8]) →
      decodeCommand g ([0x24#8, 0x6F#8, 0x75#8, 0x74#8, a, b] ++ r) = .outOff (dec2 g a b))

/-- 30_encoding.md R97, R102: a text `$in`, two bytes and any further bytes is of format I whatever the bytes. -/
def Obligations.InTextsDecode : Prop :=
  ∀ (g : Config) (a b : Byte) (r : Str),
    ((1 ≤ dec2 g a b ∧ dec2 g a b ≤ 8) →
      decodeCommand g ([0x24#8, 0x69#8, 0x6E#8, a, b] ++ r) = .inRead (dec2 g a b)) ∧
    (¬(1 ≤ dec2 g a b ∧ dec2 g a b ≤ 8) →
      decodeCommand g ([0x24#8, 0x69#8, 0x6E#8, a, b] ++ r) = .inRange (dec2 g a b))

/-- 30_encoding.md R99: UNKNOWN is exactly what matches none of the formats H, O, I and A. -/
def Obligations.UnknownIsWhatNoFormatMatches : Prop :=
  ∀ (g : Config) (c : Str), decodeCommand g c = .unknown c ↔
    c ≠ [0x23#8, 0x23#8, 0x68#8, 0x61#8, 0x72#8, 0x64#8, 0x63#8, 0x68#8, 0x65#8, 0x63#8, 0x6B#8] ∧
    ¬((∃ r : Str, c = [0x24#8, 0x6F#8, 0x75#8, 0x74#8] ++ r) ∧ 8 ≤ c.length) ∧
    ¬((∃ r : Str, c = [0x24#8, 0x69#8, 0x6E#8] ++ r) ∧ 5 ≤ c.length) ∧
    c ≠ [0x24#8, 0x61#8, 0x64#8]

/-- 30_encoding.md R109: four decimal digits, thousands first, that are the number. -/
def Obligations.FourDigitsAreTheNumber : Prop :=
  ∀ n : Nat, n ≤ 9999 → ∃ a b c d : Nat, a ≤ 9 ∧ b ≤ 9 ∧ c ≤ 9 ∧ d ≤ 9 ∧
    n = 1000 * a + 100 * b + 10 * c + d ∧
    fmt4 n = [BitVec.ofNat 8 (0x30 + a), BitVec.ofNat 8 (0x30 + b), BitVec.ofNat 8 (0x30 + c),
      BitVec.ofNat 8 (0x30 + d)]

/-- Words written out from 30_encoding.md (R91, R92, R95, R114) decode to the rows they stand for. -/
def Obligations.WordsOfTheSpecDecode : Prop :=
  decode Config.reference (.byte 0x0D#8) = .byteCr ∧
  decode Config.reference (.byte 0x0A#8) = .byteLf ∧
  decode Config.reference (.byte 0x00#8) = .byteData 0x00#8 ∧
  decode Config.reference (.command [0x23, 0x23, 0x68, 0x61, 0x72, 0x64, 0x63, 0x68, 0x65, 0x63, 0x6B]) = .hardcheck ∧
  decode Config.reference (.command [0x24, 0x6F, 0x75, 0x74, 0x30, 0x33, 0x6F, 0x6E]) = .outOn 3 ∧
  decode Config.reference (.command [0x24, 0x6F, 0x75, 0x74, 0x30, 0x33, 0x6F, 0x66, 0x66]) = .outOff 3 ∧
  decode Config.reference (.command [0x24, 0x6F, 0x75, 0x74, 0x31, 0x32, 0x6F, 0x6E]) = .outRange 12 ∧
  decode Config.reference (.command [0x24, 0x69, 0x6E, 0x30, 0x35]) = .inRead 5 ∧
  decode Config.reference (.command [0x24, 0x69, 0x6E, 0x31, 0x36]) = .inRange 16 ∧
  decode Config.reference (.command [0x24, 0x61, 0x64]) = .ad ∧
  decode Config.reference (.command [0x24, 0x41, 0x44]) = .unknown [0x24, 0x41, 0x44] ∧
  decode Config.reference (.poll 0b00000#5) = .dbFirst ∧
  decode Config.reference (.poll 0b11100#5) = .dbAccept ∧
  decode Config.reference (.poll 0b11011#5) = .dbReject ∧
  decode Config.reference (.poll 0b10110#5) = .dbFire ∧
  decode Config.reference (.poll 0b10111#5) = .dbHold

/-- 20_memory.md R62, 42_relay_controller.md R181: ids 1 to 8 are bank A bits id - 1, ids 9 to 11 bank B bits id - 9,
undefined elsewhere, one bank and bit per id. -/
def Obligations.RelayMapIsTheBijection : Prop :=
  (∀ id : Nat, 1 ≤ id → id ≤ 8 → ∃ i : BitIx, i.val = id - 1 ∧ relayMap id = some (.outA, i)) ∧
  (∀ id : Nat, 9 ≤ id → id ≤ 11 → ∃ i : BitIx, i.val = id - 9 ∧ relayMap id = some (.outB, i)) ∧
  (∀ id : Nat, id = 0 ∨ 12 ≤ id → relayMap id = none) ∧
  (∀ id id' : Nat, 1 ≤ id → id ≤ 11 → 1 ≤ id' → id' ≤ 11 → relayMap id = relayMap id' → id = id')

/-! ## A step runs what it fetches -/

/-- In the drain phase with no Command in transit and a byte available, the step pops the oldest byte and runs its
instruction. -/
def Obligations.StepRunsTheOldestByte : Prop :=
  ∀ (s : State) (b : Byte) (rest : Str), s.hung = false → s.seq = .drain → s.cmd = none →
    (s.env.tick s.cfg.timeBits).rx = b :: rest →
    step s = exec (decodeByte b)
      { s with env := { s.env.tick s.cfg.timeBits with rx := rest }, trace := s.trace ++ [.rxPop b] }

/-- In the drain phase with a Command in transit, the step takes it and runs its instruction; no byte is popped before
(46_poll_loop.md R262). -/
def Obligations.StepRunsTheCommandInTransit : Prop :=
  ∀ (s : State) (c : Str), s.hung = false → s.seq = .drain → s.cmd = some c →
    step s = exec (decodeCommand s.cfg c) { s with cmd := none }

/-- In the debounce phase the step samples the button's level, then the time, and runs the case the condition vector
selects (46_poll_loop.md R263). -/
def Obligations.StepRunsThePolledCase : Prop :=
  ∀ (s : State), s.hung = false → s.seq = .debounce → s.env.capOk = true →
    ∃ (t : State) (e1 e2 : Env), e1 = s.env.tick s.cfg.timeBits ∧ e2 = e1.tick s.cfg.timeBits ∧
      t.pollLevel = bankLevel (e1.pins s.cfg.buttonBank) s.cfg.buttonBit ∧
      t.pollNow = e2.time % 2 ^ s.cfg.timeBits ∧
      t = { s with
        pollLevel := t.pollLevel, pollNow := t.pollNow, env := { e2 with lastPoll := some e2.time },
        trace := s.trace ++ [.gpioRead s.cfg.buttonBank s.cfg.buttonBit t.pollLevel, .nowRead t.pollNow] } ∧
      step s = exec (decodePoll t.ev) t

/-- 46_poll_loop.md R267: DRAIN goes to DEBOUNCE when no byte is available and no Command waits; nothing else
happens. -/
def Obligations.DrainEndsWhenNothingIsAvailable : Prop :=
  ∀ (s : State), s.hung = false → s.seq = .drain → s.cmd = none → (s.env.tick s.cfg.timeBits).rx = [] →
    step s = .next { s with env := s.env.tick s.cfg.timeBits, seq := .debounce }

/-- 46_poll_loop.md R267, 10_state.md R32: ESC_WAIT ends at the first look at the clock that shows ESC_DELAY or more
since ESC_T0; until then nothing but the look happens, no byte popped, nothing dispatched (45_debounce_edge.md R233). -/
def Obligations.EscWaitOnlyLooksAtTheClock : Prop :=
  ∀ (s : State), s.hung = false → s.seq = .escWait →
    ∃ (e : Env) (now : Timestamp), e = s.env.tick s.cfg.timeBits ∧ now = e.time % 2 ^ s.cfg.timeBits ∧
      step s = .next { s with
        env := e, trace := s.trace ++ [.nowRead now],
        seq := if s.cfg.escDelay ≤ elapsed s.cfg.timeBits now s.escT0 then .escSend else .escWait }

/-- 46_poll_loop.md R267, 45_debounce_edge.md R233: ESC_SEND transmits the twelve bytes and goes back to DRAIN. That
they stand on RX at once under LOOPBACK is log entry 13. -/
def Obligations.EscSendTransmitsHardcheck : Prop :=
  ∀ (s : State), s.hung = false → s.seq = .escSend → s.env.capOk = true →
    ∃ text : Str, text = [0x23, 0x23, 0x68, 0x61, 0x72, 0x64, 0x63, 0x68, 0x65, 0x63, 0x6B, 0x0D] ∧
      step s = .next { s with
        seq := .drain, env := s.env.heard s.cfg.loopback text, trace := s.trace ++ txEvents text }

/-- 30_encoding.md R114, 45_debounce_edge.md R235: the case that the condition vector of a state selects, in the order
of 60_exceptions.md R288 (c). -/
def Obligations.ConditionVectorSelectsTheCase : Prop :=
  ∀ (s : State), decodePoll s.ev =
    if s.dbInit = false then .dbFirst
    else if s.pollLevel ≠ s.dbLevel then
      (if elapsed s.cfg.timeBits s.pollNow s.dbTchg > s.cfg.debounceDelay then .dbAccept else .dbReject)
    else if elapsed s.cfg.timeBits s.pollNow s.dbTstart > s.cfg.stableTime ∧ s.dbConf = false then .dbFire
    else .dbHold

/-! ## The byte instructions -/

/-- 40_line_assembler.md R131, R132, R135: CR and LF alike emit the trimmed buffer and empty it, do nothing on an
empty buffer, and discard an over-long line with a log event (decisions D4 and D12). The field cmd is log entry 5. -/
def Obligations.TerminatorEndsTheLine : Prop :=
  ∀ (s : State) (i : Instr), i = .byteCr ∨ i = .byteLf →
    (s.lbOvf = false → s.lb ≠ [] → exec i s = .next { s with lb := [], cmd := some (trim s.cfg.trimSet s.lb) }) ∧
    (s.lbOvf = false → s.lb = [] → exec i s = .next { s with cmd := none }) ∧
    (s.lbOvf = true → exec i s =
      .next { s with lb := [], lbOvf := false, cmd := none, trace := s.trace ++ [.log .lineOverflow 0] })

/-- 40_line_assembler.md R133, R134: with room in the buffer the byte is appended, whatever it is; at the bound it is
dropped and the overflow flag set (decision D4); no Command results. The field cmd is log entry 5. -/
def Obligations.DataByteIsAppendedOrDropped : Prop :=
  ∀ (s : State) (b : Byte),
    ((∀ m, s.cfg.lineMax = some m → s.lb.length < m) →
      exec (.byteData b) s = .next { s with lb := s.lb ++ [b], cmd := none }) ∧
    (s.cfg.lineMax = some s.lb.length → exec (.byteData b) s = .next { s with lbOvf := true, cmd := none })

/-! ## The commands -/

/-- 41_command_dispatcher.md R151: one log event (the spec's decision D12), nothing else. -/
def Obligations.HardcheckOnlyLogs : Prop :=
  ∀ (s : State), exec .hardcheck s = .next { s with trace := s.trace ++ [.log .hardcheckRx 0] }

/-- 41_command_dispatcher.md R152, 42_relay_controller.md R180, R182, R185: under CAP_OK OUT_ON writes LOW to its
relay's bit, in the shadow register and in the expander's latch, and nothing else changes. -/
def Obligations.OutOnWritesLowToItsRelay : Prop :=
  ∀ (s : State) (id : Nat), 1 ≤ id → id ≤ 11 → s.env.capOk = true →
    ∃ (t : State) (k : OutBank) (i : BitIx),
      k = (if id ≤ 8 then .outA else .outB) ∧ i.val = (if id ≤ 8 then id - 1 else id - 9) ∧
      exec (.outOn id) s = .next t ∧
      (∀ k' i', t.outLevel k' i' = if k' = k ∧ i' = i then .low else s.outLevel k' i') ∧
      (∀ k' i', t.env.latchLevel k' i' = if k' = k ∧ i' = i then .low else s.env.latchLevel k' i') ∧
      t = { s with
        outA := t.outA, outB := t.outB,
        env := { s.env with latchA := t.env.latchA, latchB := t.env.latchB },
        trace := s.trace ++ [.gpioWrite k i .low] }

/-- 41_command_dispatcher.md R153, 42_relay_controller.md R180, R182, R185: under CAP_OK OUT_OFF writes HIGH to its
relay's bit, in the shadow register and in the expander's latch, and nothing else changes. -/
def Obligations.OutOffWritesHighToItsRelay : Prop :=
  ∀ (s : State) (id : Nat), 1 ≤ id → id ≤ 11 → s.env.capOk = true →
    ∃ (t : State) (k : OutBank) (i : BitIx),
      k = (if id ≤ 8 then .outA else .outB) ∧ i.val = (if id ≤ 8 then id - 1 else id - 9) ∧
      exec (.outOff id) s = .next t ∧
      (∀ k' i', t.outLevel k' i' = if k' = k ∧ i' = i then .high else s.outLevel k' i') ∧
      (∀ k' i', t.env.latchLevel k' i' = if k' = k ∧ i' = i then .high else s.env.latchLevel k' i') ∧
      t = { s with
        outA := t.outA, outB := t.outB,
        env := { s.env with latchA := t.env.latchA, latchB := t.env.latchB },
        trace := s.trace ++ [.gpioWrite k i .high] }

/-- 41_command_dispatcher.md R154: an out-of-range relay number is logged, nothing else. -/
def Obligations.OutRangeOnlyLogs : Prop :=
  ∀ (s : State) (n : Nat), exec (.outRange n) s =
    .next { s with trace := s.trace ++ [.log .outRange (BitVec.ofNat 8 n)] }

/-- 41_command_dispatcher.md R155, 43_input_reader.md R195 to R198: IN samples bit id - 1 of IN_A once, then transmits
`on` CR if it reads LOW and `off` CR if HIGH; no register changes. One event is logged; its content is the spec's
decision D12, and its place among the calls is left out (R197). That the response stands on RX at once under LOOPBACK
is log entry 13. -/
def Obligations.InAnswersTheLevel : Prop :=
  ∀ (s : State) (id : Nat), 1 ≤ id → id ≤ 8 → s.env.capOk = true →
    ∃ (t : State) (i : BitIx) (level : Level) (text : Str) (arg : Byte), i.val = id - 1 ∧
      level = bankLevel (s.env.tick s.cfg.timeBits).inA i ∧
      text = (match level with
        | .low => [0x6F, 0x6E, 0x0D]
        | .high => [0x6F, 0x66, 0x66, 0x0D]) ∧
      arg.toNat = (match level with
        | .low => 128 + id
        | .high => id) ∧
      exec (.inRead id) s = .next t ∧
      t = { s with env := (s.env.tick s.cfg.timeBits).heard s.cfg.loopback text, trace := t.trace } ∧
      withoutLog t.trace = withoutLog s.trace ++ [.gpioRead .inA i level] ++ txEvents text ∧
      t.log = s.log ++ [(.inputState, arg)]

/-- 41_command_dispatcher.md R156: an out-of-range input number does nothing at all. -/
def Obligations.InRangeDoesNothing : Prop :=
  ∀ (s : State) (n : Nat), exec (.inRange n) s = .next s

/-- 41_command_dispatcher.md R157, 44_analog_sampler.md R210 to R212: AD takes one sample of the low ADC_BITS bits and
transmits it as four digits and CR; no register changes and nothing is logged. That the response stands on RX at once
under LOOPBACK is log entry 13, the width of the sample log entry 8. -/
def Obligations.AdTransmitsTheRawCount : Prop :=
  ∀ (s : State), s.env.capOk = true →
    ∃ (n : Nat) (text : Str), n = (s.env.tick s.cfg.timeBits).adcRaw % 2 ^ s.cfg.adcBits.val ∧ n ≤ 8191 ∧
      text = [BitVec.ofNat 8 (0x30 + n / 1000 % 10), BitVec.ofNat 8 (0x30 + n / 100 % 10),
        BitVec.ofNat 8 (0x30 + n / 10 % 10), BitVec.ofNat 8 (0x30 + n % 10), 0x0D] ∧
      exec .ad s = .next { s with
        env := (s.env.tick s.cfg.timeBits).heard s.cfg.loopback text,
        trace := s.trace ++ [.adcRead s.cfg.adcChannel n] ++ txEvents text }

/-- 41_command_dispatcher.md R158: an unknown Command is logged with its length, nothing else. -/
def Obligations.UnknownOnlyLogs : Prop :=
  ∀ (s : State) (text : Str), exec (.unknown text) s =
    .next { s with trace := s.trace ++ [.log .unknownCmd (BitVec.ofNat 8 text.length)] }

/-- 20_memory.md R62, R63: the maps are undefined outside their ranges, and an instruction built with such a number,
which no decoding yields, is refused by name. -/
def Obligations.NumbersOutsideTheMapsAreRefused : Prop :=
  ∀ (s : State) (id : Nat),
    (id = 0 ∨ 12 ≤ id → exec (.outOn id) s = .refused .relayIdUndefined ∧
      exec (.outOff id) s = .refused .relayIdUndefined) ∧
    (id = 0 ∨ 9 ≤ id → exec (.inRead id) s = .refused .inputIdUndefined)

/-! ## The debounce step -/

/-- 45_debounce_edge.md R227: while DB_INIT is 0 the poll records the level and the time, and sets DB_INIT. -/
def Obligations.FirstPollRecordsTheBaseline : Prop :=
  ∀ (s : State),
    (s.dbInit = false → decodePoll s.ev = .dbFirst) ∧
    exec .dbFirst s = .next { s with
      dbLevel := s.pollLevel, dbTchg := s.pollNow, dbTstart := s.pollNow, dbInit := true, seq := .drain }

/-- 45_debounce_edge.md R230: a change seen more than DEBOUNCE_DELAY after DB_TCHG sets both timers and the level, and
clears DB_CONF. -/
def Obligations.AcceptedChangeRestartsTheStretch : Prop :=
  ∀ (s : State),
    (s.dbInit = true → s.pollLevel ≠ s.dbLevel → elapsed s.cfg.timeBits s.pollNow s.dbTchg > s.cfg.debounceDelay →
      decodePoll s.ev = .dbAccept) ∧
    exec .dbAccept s = .next { s with
      dbTchg := s.pollNow, dbTstart := s.pollNow, dbConf := false, dbLevel := s.pollLevel, seq := .drain }

/-- 45_debounce_edge.md R231: a change seen no more than DEBOUNCE_DELAY after DB_TCHG is recorded as the level, and
timers and flag stay. -/
def Obligations.RejectedChangeOnlyRecordsTheLevel : Prop :=
  ∀ (s : State),
    (s.dbInit = true → s.pollLevel ≠ s.dbLevel → elapsed s.cfg.timeBits s.pollNow s.dbTchg ≤ s.cfg.debounceDelay →
      decodePoll s.ev = .dbReject) ∧
    exec .dbReject s = .next { s with dbLevel := s.pollLevel, seq := .drain }

/-- 45_debounce_edge.md R228, R233, 46_poll_loop.md R267: an unchanged level whose stretch exceeds STABLE_TIME, the flag
clear, sets DB_CONF, transmits the lone CR, then captures ESC_T0 (the spec's decision D16), and goes to ESC_WAIT; no
other debounce register is written. That the CR stands on RX at once under LOOPBACK is log entry 13. -/
def Obligations.FiringStepSetsTheFlagAndSendsCR : Prop :=
  ∀ (s : State),
    (s.dbInit = true → s.pollLevel = s.dbLevel → elapsed s.cfg.timeBits s.pollNow s.dbTstart > s.cfg.stableTime →
      s.dbConf = false → decodePoll s.ev = .dbFire) ∧
    (s.env.capOk = true →
      ∃ (e : Env) (t0 : Timestamp), e = (s.env.heard s.cfg.loopback [0x0D]).tick s.cfg.timeBits ∧
        t0 = e.time % 2 ^ s.cfg.timeBits ∧
        exec .dbFire s = .next { s with
          dbConf := true, env := e, escT0 := t0, seq := .escWait,
          trace := s.trace ++ [.txWrite 0x0D, .nowRead t0] })

/-- 45_debounce_edge.md R229: an unchanged level whose stretch does not exceed STABLE_TIME, or with the flag set, changes
nothing but the phase. -/
def Obligations.HoldingStepChangesNothing : Prop :=
  ∀ (s : State),
    (s.dbInit = true → s.pollLevel = s.dbLevel →
      elapsed s.cfg.timeBits s.pollNow s.dbTstart ≤ s.cfg.stableTime ∨ s.dbConf = true → decodePoll s.ev = .dbHold) ∧
    exec .dbHold s = .next { s with seq := .drain }

/-! ## The whole machine -/

/-- 70_reset_and_hazards.md R334: a capability call that never returns stops the whole block, with all that was done
before the call and nothing after it; a hung block takes no step. The fate of each call without CAP_OK is the model's
form of it (log entry 6). -/
def Obligations.CallThatNeverReturnsStopsTheBlock : Prop :=
  ∀ (s : State), (s.hung = true → step s = .fault .capabilityHang) ∧
    (s.env.capOk = false → ∀ rest : List CallFate,
      (∀ id, 1 ≤ id → id ≤ 11 → s.env.fates = .hangs :: rest →
        exec (.outOn id) s = .next { s with hung := true, env := { s.env with fates := rest } } ∧
        exec (.outOff id) s = .next { s with hung := true, env := { s.env with fates := rest } }) ∧
      (∀ id, 1 ≤ id → id ≤ 8 → s.env.fates = .hangs :: rest →
        exec (.inRead id) s =
          .next { s with hung := true, env := { s.env.tick s.cfg.timeBits with fates := rest } }) ∧
      (∀ k, k ≤ 4 → s.env.fates = List.replicate (k + 1) .done ++ .hangs :: rest →
        ∃ t, exec .ad s = .next t ∧ t.hung = true ∧ t.tx = s.tx ++
          (fmt4 ((s.env.tick s.cfg.timeBits).adcRaw % 2 ^ s.cfg.adcBits.val) ++ [0x0D]).take k) ∧
      (s.env.fates = .hangs :: rest →
        exec .dbFire s = .next { s with dbConf := true, hung := true, env := { s.env with fates := rest } }) ∧
      (s.hung = false → s.seq = .debounce → s.env.fates = .hangs :: rest →
        step s = .next { s with hung := true, env := { s.env.tick s.cfg.timeBits with fates := rest } }) ∧
      (∀ k, k ≤ 11 → s.hung = false → s.seq = .escSend →
        s.env.fates = List.replicate k .done ++ .hangs :: rest →
        ∃ t, step s = .next t ∧ t.hung = true ∧ t.seq = .escSend ∧ t.tx = s.tx ++
          [0x23#8, 0x23#8, 0x68#8, 0x61#8, 0x72#8, 0x64#8, 0x63#8, 0x68#8, 0x65#8, 0x63#8, 0x6B#8, 0x0D#8].take k))

/-- 60_exceptions.md R283, 93_implementation_defined.md U3: a call that fails and returns is not noticed. A write changes
the shadow register as ever, and the expander's latch does not follow; an input response reports a level that the pin
may not have, an analog response a meaningless number; the block goes on. The fate of each call is the model's form of
it (log entry 6). -/
def Obligations.FailedCallsAreNotNoticed : Prop :=
  ∀ (s : State) (garbage : Nat) (rest : List CallFate), s.env.capOk = false →
    (∀ (id : Nat) (on : Bool), 1 ≤ id → id ≤ 11 → s.env.fates = .failed garbage :: rest →
      ∃ (t : State) (k : OutBank) (i : BitIx) (l : Level), relayMap id = some (k, i) ∧
        l = (if on then .low else .high) ∧
        exec (if on then .outOn id else .outOff id) s = .next t ∧
        (∀ k' i', t.outLevel k' i' = if k' = k ∧ i' = i then l else s.outLevel k' i') ∧
        t = { s with
          outA := t.outA, outB := t.outB, env := { s.env with fates := rest },
          trace := s.trace ++ [.gpioWrite k i l] }) ∧
    (∀ id : Nat, 1 ≤ id → id ≤ 8 → s.env.fates = .failed garbage :: (List.replicate 4 .done ++ rest) →
      ∃ t, exec (.inRead id) s = .next t ∧ t.hung = s.hung ∧
        t.tx = s.tx ++ if garbage % 2 = 1 then [0x6F, 0x66, 0x66, 0x0D] else [0x6F, 0x6E, 0x0D]) ∧
    (s.env.fates = .failed garbage :: (List.replicate 5 .done ++ rest) →
      ∃ t, exec .ad s = .next t ∧ t.hung = s.hung ∧
        t.tx = s.tx ++ (fmt4 (garbage % 2 ^ s.cfg.adcBits.val) ++ [0x0D]))

/-- 60_exceptions.md R280, R286: every step of a block that does not hang goes on, from every state, and under CAP_OK it
never hangs. -/
def Obligations.EveryStepGoesOn : Prop :=
  ∀ (s : State), s.hung = false →
    ∃ t, step s = .next t ∧ (s.env.capOk = true → t.env.capOk = true ∧ t.hung = false)

/-- 60_exceptions.md R281, R282, R284: an instruction that reports an error condition goes on, transmits nothing, and
leaves the outputs, the debounce registers, the phase and the outside as they were. -/
def Obligations.ErrorConditionsAreSilent : Prop :=
  ∀ (s : State) (i : Instr) (c : ErrorCondition), errorCondition i s = some c →
    ∃ t, exec i s = .next t ∧ t.tx = s.tx ∧
      t = { s with lb := t.lb, lbOvf := t.lbOvf, cmd := t.cmd, trace := t.trace } ∧
      (c = .outRange ∨ c = .inRange ∨ c = .unknown → t.lb = s.lb ∧ t.lbOvf = s.lbOvf ∧ t.cmd = s.cmd) ∧
      (c = .lineOvf → t.lb = [] ∧ t.lbOvf = false ∧ t.cmd = none)

/-- 10_state.md R39: every step keeps the invariants (I1) to (I5), those of the outputs and of time, and the model's own,
and (I6) DB_INIT never falls. -/
def Obligations.EveryStepKeepsTheInvariant : Prop :=
  ∀ (s t : State), s.Inv → step s = .next t → t.Inv ∧ (s.dbInit = true → t.dbInit = true)

/-- The invariant holds after every reset, for every configuration, value of the unspecified registers and outside. -/
def Obligations.InvariantHoldsAfterReset : Prop :=
  ∀ (c : Config) (u : Unspecified) (e : Env) (tr : List Event), (State.resetWith c u e tr).Inv

/-- 10_state.md R40, 70_reset_and_hazards.md R320: the registers after reset, for every value of RELAY_RESET and of
the unspecified registers; in State.reset the relays are all HIGH, the default. -/
def Obligations.RegistersAfterReset : Prop :=
  (∀ (c : Config) (u : Unspecified) (e : Env) (tr : List Event),
    let s := State.resetWith c u e tr
    s.lb = [] ∧ s.lbOvf = false ∧ s.dbInit = false ∧ s.dbConf = false ∧ s.seq = .drain ∧ s.hung = false ∧
      (∀ i : BitIx, s.outLevel .outA i = bitLevel (c.relayReset.getLsbD i.val)) ∧
      (∀ i : BitIx, i.val ≤ 2 → s.outLevel .outB i = bitLevel (c.relayReset.getLsbD (8 + i.val)))) ∧
  State.reset.outA = 0xFF#8 ∧ State.reset.outB &&& 0x07#8 = 0x07#8

/-- 70_reset_and_hazards.md R320, R322, R323, R324: a reset of a running machine gives every register its reset value,
whatever it held, and so the relays; waiting bytes are not flushed, nothing is transmitted, and the rest of the outside
stays. That it comes between steps only, and that a new count of polls begins, is log entry 15. -/
def Obligations.ResetForgetsRegistersAndKeepsTheOutside : Prop :=
  ∀ (s s' : State) (u : Unspecified),
    let t := s.assertReset u
    t.lb = [] ∧ t.lbOvf = false ∧ t.dbInit = false ∧ t.dbConf = false ∧ t.seq = .drain ∧ t.cmd = none ∧ t.hung = false ∧
    (∀ i : BitIx, t.outLevel .outA i = bitLevel (s.cfg.relayReset.getLsbD i.val)) ∧
    (∀ i : BitIx, i.val ≤ 2 → t.outLevel .outB i = bitLevel (s.cfg.relayReset.getLsbD (8 + i.val))) ∧
    (∀ id k i, relayMap id = some (k, i) → t.env.latchLevel k i = t.outLevel k i) ∧
    t.cfg = s.cfg ∧ t.trace = s.trace ∧
    t.env = { s.env with lastPoll := none, latchA := t.env.latchA, latchB := t.env.latchB } ∧
    (s.cfg = s'.cfg → s.env = s'.env → s.trace = s'.trace → t = s'.assertReset u)

/-- 10_state.md R35: no step changes a parameter. -/
def Obligations.ParametersNeverChange : Prop :=
  ∀ (s t : State), step s = .next t → t.cfg = s.cfg

/-- 45_debounce_edge.md R232: DB_CONF falls only in a debounce step that accepts a change. -/
def Obligations.OnlyAnAcceptedChangeClearsTheFlag : Prop :=
  ∀ (s t : State), step s = .next t → s.dbConf = true → t.dbConf = false →
    s.seq = .debounce ∧ s.dbInit = true ∧ t.pollLevel ≠ s.dbLevel ∧
      elapsed s.cfg.timeBits t.pollNow s.dbTchg > s.cfg.debounceDelay

/-- 45_debounce_edge.md R239: between two firing steps of any run there is a step that accepts a change. -/
def Obligations.NoSecondEscalationWithoutAcceptedChange : Prop :=
  ∀ (k : Nat) (s : State) (before between after : List Instr),
    instrsRun k s = before ++ [.dbFire] ++ between ++ [.dbFire] ++ after → .dbAccept ∈ between

/-- 45_debounce_edge.md R245: the transitions of the debounce machine, and no others, once the sample is taken. -/
def Obligations.DebounceStatesFollowTheDiagram : Prop :=
  ∀ (s t u : State), s.DebounceInv → s.hung = false → s.seq = .debounce → s.sample = .goes u → step s = .next t →
    t.dbView = match s.dbView with
      | .uninit => .pending
      | .pending =>
        if t.pollLevel = s.dbLevel ∧ elapsed s.cfg.timeBits t.pollNow s.dbTstart > s.cfg.stableTime then .confirmed
        else .pending
      | .confirmed =>
        if t.pollLevel ≠ s.dbLevel ∧ elapsed s.cfg.timeBits t.pollNow s.dbTchg > s.cfg.debounceDelay then .pending
        else .confirmed

/-- 45_debounce_edge.md R246, 10_state.md R34: in the drain phase a step neither reads nor writes a debounce
register. -/
def Obligations.CommandPathIgnoresDebounceRegisters : Prop :=
  ∀ (s t : State) (init : Bool) (level : Level) (tchg tstart : Timestamp) (conf : Bool),
    s.seq = .drain → step s = .next t →
      step (s.withDebounce init level tchg tstart conf) = .next (t.withDebounce init level tchg tstart conf)

/-- 45_debounce_edge.md R246, 42_relay_controller.md R184: outside the drain phase a step neither reads nor writes the
line buffer, its flag, or an output register. -/
def Obligations.DebouncePathIgnoresLineAndOutputs : Prop :=
  ∀ (s t : State) (lb : Str) (ovf : Bool) (a b : BitVec 8), s.seq ≠ .drain → step s = .next t →
    step (s.withLineAndOutputs lb ovf a b) = .next (t.withLineAndOutputs lb ovf a b)

/-- 42_relay_controller.md R183: an output bit changes only in a step that runs the on or off command of its relay,
and then to that command's level. -/
def Obligations.RelayChangesOnlyByItsCommand : Prop :=
  ∀ (s t : State) (k : OutBank) (i : BitIx), step s = .next t → t.outLevel k i ≠ s.outLevel k i →
    ∃ id, relayMap id = some (k, i) ∧
      ((s.fetchedInstr = [.outOn id] ∧ t.outLevel k i = .low) ∨
       (s.fetchedInstr = [.outOff id] ∧ t.outLevel k i = .high))

/-- 10_state.md R30: bits 7 to 3 of OUT_B keep their value for ever. -/
def Obligations.UpperOutBBitsNeverChange : Prop :=
  ∀ (k : Nat) (s t : State), Host.Core.run Sys2Proof.core k s = .next t →
    ∀ i : BitIx, 3 ≤ i.val → t.outLevel .outB i = s.outLevel .outB i

/-- 42_relay_controller.md R183: under CAP_OK repeating an on or off command performs the same write again and changes
neither register nor latch. -/
def Obligations.RepeatingARelayCommandChangesNothing : Prop :=
  ∀ (s t u : State) (i : Instr), s.env.capOk = true → (∃ id, i = .outOn id ∨ i = .outOff id) →
    exec i s = .next t → exec i t = .next u →
      ∃ w, t.trace = s.trace ++ [w] ∧ u = { t with trace := t.trace ++ [w] }

/-- 20_memory.md R65, R64: a step reads an input bit only in IN_A or at the button, and writes an output bit only of
bank A or of bank B bits 0 to 2. -/
def Obligations.OnlyMappedPinsAreTouched : Prop :=
  ∀ (s t : State), step s = .next t → ∃ new, t.trace = s.trace ++ new ∧ ∀ e ∈ new,
    (∀ k i l, e = .gpioRead k i l → k = .inA ∨ (k = s.cfg.buttonBank ∧ i = s.cfg.buttonBit)) ∧
    (∀ k i l, e = .gpioWrite k i l → k = .outA ∨ i.val ≤ 2)

/-- 20_memory.md R70, R71: what has been transmitted and logged is only added to and never read: with another past, a
step adds the same and does the same. -/
def Obligations.TheStreamsAreOnlyWritten : Prop :=
  ∀ (s t : State), step s = .next t → ∃ new, t.trace = s.trace ++ new ∧
    ∀ past, step { s with trace := past } = .next { t with trace := past ++ new }

/-- 00_scope.md R16, 60_exceptions.md R293, 70_reset_and_hazards.md R335: elapsed is the difference modulo 2^TIME_BITS,
and over any true time below the wrap period the difference of the counter's values is the time that passed. -/
def Obligations.ElapsedIsTrueTimeBelowTheWrap : Prop :=
  ∀ w : Nat,
    (∀ a b : Timestamp, a < 2 ^ w → b < 2 ^ w → elapsed w a b = if b ≤ a then a - b else a + 2 ^ w - b) ∧
    (∀ e e' : Env, e.time ≤ e'.time → e'.time - e.time < 2 ^ w →
      elapsed w (e'.counter w) (e.counter w) = e'.time - e.time)

/-- 46_poll_loop.md R266: consecutive polls are less than 2^TIME_BITS ms apart, so that the modular difference of their
times is the time between them. That the environment's moves keep to this is log entry 11. -/
def Obligations.PollsAreLessThanAWrapApart : Prop :=
  ∀ (s t u : State) (p : Nat), s.TimeInv → s.hung = false → s.seq = .debounce → s.env.lastPoll = some p →
    s.sample = .goes u → step s = .next t →
      ∃ q, t.env.lastPoll = some q ∧ p ≤ q ∧ q - p < 2 ^ s.cfg.timeBits ∧ t.pollNow = q % 2 ^ s.cfg.timeBits ∧
        elapsed s.cfg.timeBits t.pollNow (p % 2 ^ s.cfg.timeBits) = q - p

/-- 46_poll_loop.md R264: the poll after an escalating one sees a time at least ESC_DELAY later on the counter. The run
goes from the escalating step to the next one in the debounce phase. -/
def Obligations.NextPollComesAfterTheStall : Prop :=
  ∀ (n : Nat) (s t u v w : State), s.seq = .debounce → step s = .next t → t.seq = .escWait →
    (∀ m x, m < n → Host.Core.run Sys2Proof.core m t = .next x → x.seq ≠ .debounce) →
    Host.Core.run Sys2Proof.core n t = .next u → u.seq = .debounce → u.sample = .goes v → step u = .next w →
      s.cfg.escDelay ≤ elapsed s.cfg.timeBits w.pollNow t.pollNow

/-- 40_line_assembler.md R131, R138, R139: from an empty buffer, a line within the bound and its terminator at the head
of the RX stream become one Command, the trimmed line, in one step a byte; nothing is transmitted or written
meanwhile, and later arrivals stand behind what waits. The field cmd is log entry 5. -/
def Obligations.AWholeLineBecomesOneCommand : Prop :=
  ∀ (s : State) (line rest : Str) (e : Byte), s.hung = false → s.seq = .drain → s.cmd = none → s.lb = [] →
    s.lbOvf = false → s.env.rx = line ++ [e] ++ rest → line ≠ [] → (∀ b ∈ line, b ≠ 0x0D#8 ∧ b ≠ 0x0A#8) →
    e = 0x0D#8 ∨ e = 0x0A#8 → (∀ m, s.cfg.lineMax = some m → line.length ≤ m) →
      ∃ (t : State) (more : Str), Host.Core.run Sys2Proof.core (line.length + 1) s = .next t ∧
        t.env.rx = rest ++ more ∧
        t = { s with cmd := some (trim s.cfg.trimSet line), env := t.env, trace := s.trace ++ (line ++ [e]).map .rxPop }

/-- 41_command_dispatcher.md R150: running the decoded instruction is the spec's dispatch. -/
def Obligations.DecodedCommandIsDispatch : Prop :=
  ∀ (s : State) (c : Str), exec (decodeCommand s.cfg c) s = Pseudocode.dispatch c s

/-- 45_debounce_edge.md R234, R233, 46_poll_loop.md R267: running the selected case is the spec's db_step, followed by
DRAIN if it returns none, or by the lone CR, the capture of ESC_T0 and ESC_WAIT if it returns the escalation. -/
def Obligations.SelectedCaseIsDbStep : Prop :=
  ∀ (s t : State) (esc : Bool), Pseudocode.dbStep s.pollLevel s.pollNow s = (t, esc) →
    exec (decodePoll s.ev) s =
      .next (if esc then t.escalate.last else { t with seq := .drain })

/-- 46_poll_loop.md R260, R267: whenever the spec's poll cycle, from the start of its drain phase, comes to its end, the
steps of the machine lead to the same state. -/
def Obligations.StepsRefineThePollCycle : Prop :=
  ∀ (fuel : Nat) (s t : State), s.hung = false → s.seq = .drain → s.cmd = none → Pseudocode.pollCycle fuel s = some t →
    ∃ n, Host.Core.run Sys2Proof.core n s = .next t
end

