-- ==== Sys2Proof/Laws/Decode.lean ====
section
/-! SUPPORT. What the decoder can answer, for proofs that split on it. -/

namespace Sys2Proof

/-- A text that starts with p is p and a rest (00_scope.md R14). -/
theorem startsWith_iff {s p : Str} : startsWith s p = true ↔ ∃ r, s = p ++ r := by
  simp only [startsWith, Bool.and_eq_true, decide_eq_true_eq]
  unfold sub
  constructor
  · rintro ⟨-, h⟩
    refine ⟨s.drop p.length, ?_⟩
    conv_lhs => rw [← List.take_append_drop p.length s, show s.take p.length = p from h]
  · rintro ⟨r, rfl⟩
    simp

/-- A text that ends with p is a rest and p (00_scope.md R14). -/
theorem endsWith_iff {s p : Str} : endsWith s p = true ↔ ∃ r, s = r ++ p := by
  simp only [endsWith, Bool.and_eq_true, decide_eq_true_eq]
  unfold sub
  constructor
  · rintro ⟨hl, h⟩
    refine ⟨s.take (s.length - p.length), ?_⟩
    have hd : (s.drop (s.length - p.length)).take p.length = s.drop (s.length - p.length) := by
      apply List.take_of_length_le
      simp only [List.length_drop]
      omega
    rw [hd] at h
    conv_lhs => rw [← List.take_append_drop (s.length - p.length) s, h]
  · rintro ⟨r, rfl⟩
    simp

/-- A data byte is neither CR nor LF (30_encoding.md R91). -/
theorem isTerminator_eq_false {b : Byte} : isTerminator b = false ↔ b ≠ 0x0D#8 ∧ b ≠ 0x0A#8 := by
  simp [isTerminator, charCR, charLF]

theorem isTerminator_eq_true {b : Byte} : isTerminator b = true ↔ b = 0x0D#8 ∨ b = 0x0A#8 := by
  simp [isTerminator, charCR, charLF]

/-- Trimming adds no byte. -/
theorem mem_of_mem_trim {set : List Byte} {s : Str} {b : Byte} (h : b ∈ trim set s) : b ∈ s := by
  have h1 := (List.dropWhile_sublist _).subset (List.mem_reverse.mp h)
  exact (List.dropWhile_sublist _).subset (List.mem_reverse.mp h1)

/-- A text whose first and last byte are not in the set is its own trim (30_encoding.md R94). -/
theorem trim_eq_self {set : List Byte} {a b : Byte} {s r f : Str} (hs : s = a :: r) (hf : s = f ++ [b])
    (ha : a ∉ set) (hb : b ∉ set) : trim set s = s := by
  have h1 : s.dropWhile (inTrimSet set) = s := by simp [hs, inTrimSet, ha]
  have h2 : s.reverse.dropWhile (inTrimSet set) = s.reverse := by simp [hf, inTrimSet, hb]
  rw [trim, h1, h2, List.reverse_reverse]

theorem properCommand_iff {g : Config} {c : Str} :
    properCommand g c = true ↔ (∀ b ∈ c, isTerminator b = false) ∧ trim g.trimSet c = c := by
  simp [properCommand]

/-- What the checks of a configuration say of `TRIM_SET`: no byte of a canonical text is in it. -/
theorem Config.wf_trimSet {g : Config} (h : g.wf = true) {b : Byte} (hb : b ∈ canonicalBytes ∨ isDigit b = true) :
    b ∉ g.trimSet := by
  simp only [Config.wf, Bool.and_eq_true, List.all_eq_true] at h
  intro hm
  have := h.2 b hm
  rcases hb with hb | hb <;> simp [hb] at this

theorem digit_le_nine {c : Byte} (h : isDigit c = true) : digit c ≤ 9 := by
  simp only [isDigit, decide_eq_true_eq] at h
  unfold digit
  omega

theorem dec2Strict_le (c0 c1 : Byte) : dec2Strict c0 c1 ≤ 99 := by
  unfold dec2Strict
  split
  · omega
  · rename_i h0
    have := digit_le_nine (c := c0) (by simpa using h0)
    split
    · omega
    · rename_i h1
      have := digit_le_nine (c := c1) (by simpa using h1)
      omega

/-- A two-byte field is a number of 0 to 99 under either reading (30_encoding.md R101). -/
theorem dec2_le (g : Config) (c0 c1 : Byte) : dec2 g c0 c1 ≤ 99 := by
  have hs := dec2Strict_le c0 c1
  unfold dec2 dec2Atol
  split
  · exact hs
  · split
    · exact hs
    · split
      · split
        · exact (digit_le_nine ‹_›).trans (by omega)
        · omega
      · omega

/-- Everything the byte decoder can answer. -/
theorem decodeByte_cases (b : Byte) :
    (b = charCR ∧ decodeByte b = .byteCr) ∨ (b = charLF ∧ decodeByte b = .byteLf) ∨
    (isTerminator b = false ∧ decodeByte b = .byteData b) := by
  unfold decodeByte
  split
  · exact .inl ⟨‹_›, rfl⟩
  · split
    · exact .inr (.inl ⟨‹_›, rfl⟩)
    · exact .inr (.inr ⟨by simp [isTerminator, *], rfl⟩)

/-- Everything the command decoder can answer, each answer with its number in range. -/
theorem decodeCommand_cases (g : Config) (c : Str) :
    (c = textHardcheck ∧ decodeCommand g c = .hardcheck) ∨
    (∃ n, 1 ≤ n ∧ n ≤ 11 ∧ (decodeCommand g c = .outOn n ∨ decodeCommand g c = .outOff n)) ∨
    (∃ n, (n = 0 ∨ 12 ≤ n ∧ n ≤ 99) ∧ decodeCommand g c = .outRange n) ∨
    (∃ n, 1 ≤ n ∧ n ≤ 8 ∧ decodeCommand g c = .inRead n) ∨
    (∃ n, (n = 0 ∨ 9 ≤ n ∧ n ≤ 99) ∧ decodeCommand g c = .inRange n) ∨
    (c = textAd ∧ decodeCommand g c = .ad) ∨
    (c ≠ textHardcheck ∧ isFormatO c = false ∧ isFormatI c = false ∧ c ≠ textAd ∧
      decodeCommand g c = .unknown c) := by
  unfold decodeCommand
  split
  · exact .inl ⟨‹_›, rfl⟩
  · split
    · have := dec2_le g (byteAt c 4) (byteAt c 5)
      unfold decodeOut
      split
      · refine .inr (.inl ⟨_, ‹_ ∧ _›.1, ‹_ ∧ _›.2, ?_⟩)
        split <;> simp
      · exact .inr (.inr (.inl ⟨_, by omega, rfl⟩))
    · split
      · have := dec2_le g (byteAt c 3) (byteAt c 4)
        unfold decodeIn
        split
        · exact .inr (.inr (.inr (.inl ⟨_, ‹_ ∧ _›.1, ‹_ ∧ _›.2, rfl⟩)))
        · exact .inr (.inr (.inr (.inr (.inl ⟨_, by omega, rfl⟩))))
      · split
        · exact .inr (.inr (.inr (.inr (.inr (.inl ⟨‹_›, rfl⟩)))))
        · exact .inr (.inr (.inr (.inr (.inr (.inr ⟨‹_›, by simp_all, by simp_all, ‹_›, rfl⟩)))))

/-- Everything the poll decoder can answer. -/
theorem decodePoll_cases (ev : BitVec 5) :
    decodePoll ev = .dbFirst ∨ decodePoll ev = .dbAccept ∨ decodePoll ev = .dbReject ∨ decodePoll ev = .dbFire ∨
      decodePoll ev = .dbHold := by
  revert ev; decide

end Sys2Proof
end

