-- ==== Sys2Proof/Laws/State.lean ====
section
/-! SUPPORT. One lemma per field of State for each primitive operation, and per field of Env for each of its: what the
operation leaves there. -/

namespace Sys2Proof.Machine

/-! ## emit -/

@[simp] theorem State.emit_cfg (s : State) (e : Event) : (s.emit e).cfg = s.cfg := rfl
@[simp] theorem State.emit_lb (s : State) (e : Event) : (s.emit e).lb = s.lb := rfl
@[simp] theorem State.emit_lbOvf (s : State) (e : Event) : (s.emit e).lbOvf = s.lbOvf := rfl
@[simp] theorem State.emit_dbInit (s : State) (e : Event) : (s.emit e).dbInit = s.dbInit := rfl
@[simp] theorem State.emit_dbLevel (s : State) (e : Event) : (s.emit e).dbLevel = s.dbLevel := rfl
@[simp] theorem State.emit_dbTchg (s : State) (e : Event) : (s.emit e).dbTchg = s.dbTchg := rfl
@[simp] theorem State.emit_dbTstart (s : State) (e : Event) : (s.emit e).dbTstart = s.dbTstart := rfl
@[simp] theorem State.emit_dbConf (s : State) (e : Event) : (s.emit e).dbConf = s.dbConf := rfl
@[simp] theorem State.emit_outA (s : State) (e : Event) : (s.emit e).outA = s.outA := rfl
@[simp] theorem State.emit_outB (s : State) (e : Event) : (s.emit e).outB = s.outB := rfl
@[simp] theorem State.emit_seq (s : State) (e : Event) : (s.emit e).seq = s.seq := rfl
@[simp] theorem State.emit_escT0 (s : State) (e : Event) : (s.emit e).escT0 = s.escT0 := rfl
@[simp] theorem State.emit_cmd (s : State) (e : Event) : (s.emit e).cmd = s.cmd := rfl
@[simp] theorem State.emit_pollLevel (s : State) (e : Event) : (s.emit e).pollLevel = s.pollLevel := rfl
@[simp] theorem State.emit_pollNow (s : State) (e : Event) : (s.emit e).pollNow = s.pollNow := rfl
@[simp] theorem State.emit_hung (s : State) (e : Event) : (s.emit e).hung = s.hung := rfl
@[simp] theorem State.emit_env (s : State) (e : Event) : (s.emit e).env = s.env := rfl
@[simp] theorem State.emit_trace (s : State) (e : Event) : (s.emit e).trace = s.trace ++ [e] := rfl

/-! ## tick -/

@[simp] theorem State.tick_cfg (s : State) : s.tick.cfg = s.cfg := rfl
@[simp] theorem State.tick_lb (s : State) : s.tick.lb = s.lb := rfl
@[simp] theorem State.tick_lbOvf (s : State) : s.tick.lbOvf = s.lbOvf := rfl
@[simp] theorem State.tick_dbInit (s : State) : s.tick.dbInit = s.dbInit := rfl
@[simp] theorem State.tick_dbLevel (s : State) : s.tick.dbLevel = s.dbLevel := rfl
@[simp] theorem State.tick_dbTchg (s : State) : s.tick.dbTchg = s.dbTchg := rfl
@[simp] theorem State.tick_dbTstart (s : State) : s.tick.dbTstart = s.dbTstart := rfl
@[simp] theorem State.tick_dbConf (s : State) : s.tick.dbConf = s.dbConf := rfl
@[simp] theorem State.tick_outA (s : State) : s.tick.outA = s.outA := rfl
@[simp] theorem State.tick_outB (s : State) : s.tick.outB = s.outB := rfl
@[simp] theorem State.tick_seq (s : State) : s.tick.seq = s.seq := rfl
@[simp] theorem State.tick_escT0 (s : State) : s.tick.escT0 = s.escT0 := rfl
@[simp] theorem State.tick_cmd (s : State) : s.tick.cmd = s.cmd := rfl
@[simp] theorem State.tick_pollLevel (s : State) : s.tick.pollLevel = s.pollLevel := rfl
@[simp] theorem State.tick_pollNow (s : State) : s.tick.pollNow = s.pollNow := rfl
@[simp] theorem State.tick_hung (s : State) : s.tick.hung = s.hung := rfl
@[simp] theorem State.tick_env (s : State) : s.tick.env = s.env.tick s.cfg.timeBits := rfl
@[simp] theorem State.tick_trace (s : State) : s.tick.trace = s.trace := rfl

/-! ## drawFate -/

@[simp] theorem State.drawFate_cfg (s : State) : s.drawFate.cfg = s.cfg := rfl
@[simp] theorem State.drawFate_lb (s : State) : s.drawFate.lb = s.lb := rfl
@[simp] theorem State.drawFate_lbOvf (s : State) : s.drawFate.lbOvf = s.lbOvf := rfl
@[simp] theorem State.drawFate_dbInit (s : State) : s.drawFate.dbInit = s.dbInit := rfl
@[simp] theorem State.drawFate_dbLevel (s : State) : s.drawFate.dbLevel = s.dbLevel := rfl
@[simp] theorem State.drawFate_dbTchg (s : State) : s.drawFate.dbTchg = s.dbTchg := rfl
@[simp] theorem State.drawFate_dbTstart (s : State) : s.drawFate.dbTstart = s.dbTstart := rfl
@[simp] theorem State.drawFate_dbConf (s : State) : s.drawFate.dbConf = s.dbConf := rfl
@[simp] theorem State.drawFate_outA (s : State) : s.drawFate.outA = s.outA := rfl
@[simp] theorem State.drawFate_outB (s : State) : s.drawFate.outB = s.outB := rfl
@[simp] theorem State.drawFate_seq (s : State) : s.drawFate.seq = s.seq := rfl
@[simp] theorem State.drawFate_escT0 (s : State) : s.drawFate.escT0 = s.escT0 := rfl
@[simp] theorem State.drawFate_cmd (s : State) : s.drawFate.cmd = s.cmd := rfl
@[simp] theorem State.drawFate_pollLevel (s : State) : s.drawFate.pollLevel = s.pollLevel := rfl
@[simp] theorem State.drawFate_pollNow (s : State) : s.drawFate.pollNow = s.pollNow := rfl
@[simp] theorem State.drawFate_hung (s : State) : s.drawFate.hung = s.hung := rfl
@[simp] theorem State.drawFate_env (s : State) : s.drawFate.env = s.env.drawFate := rfl
@[simp] theorem State.drawFate_trace (s : State) : s.drawFate.trace = s.trace := rfl

/-! ## rxPop -/

@[simp] theorem State.rxPop_cfg (s : State) (b : Byte) (rest : Str) : (s.rxPop b rest).cfg = s.cfg := rfl
@[simp] theorem State.rxPop_lb (s : State) (b : Byte) (rest : Str) : (s.rxPop b rest).lb = s.lb := rfl
@[simp] theorem State.rxPop_lbOvf (s : State) (b : Byte) (rest : Str) : (s.rxPop b rest).lbOvf = s.lbOvf := rfl
@[simp] theorem State.rxPop_dbInit (s : State) (b : Byte) (rest : Str) : (s.rxPop b rest).dbInit = s.dbInit := rfl
@[simp] theorem State.rxPop_dbLevel (s : State) (b : Byte) (rest : Str) : (s.rxPop b rest).dbLevel = s.dbLevel := rfl
@[simp] theorem State.rxPop_dbTchg (s : State) (b : Byte) (rest : Str) : (s.rxPop b rest).dbTchg = s.dbTchg := rfl
@[simp] theorem State.rxPop_dbTstart (s : State) (b : Byte) (rest : Str) : (s.rxPop b rest).dbTstart = s.dbTstart :=
  rfl
@[simp] theorem State.rxPop_dbConf (s : State) (b : Byte) (rest : Str) : (s.rxPop b rest).dbConf = s.dbConf := rfl
@[simp] theorem State.rxPop_outA (s : State) (b : Byte) (rest : Str) : (s.rxPop b rest).outA = s.outA := rfl
@[simp] theorem State.rxPop_outB (s : State) (b : Byte) (rest : Str) : (s.rxPop b rest).outB = s.outB := rfl
@[simp] theorem State.rxPop_seq (s : State) (b : Byte) (rest : Str) : (s.rxPop b rest).seq = s.seq := rfl
@[simp] theorem State.rxPop_escT0 (s : State) (b : Byte) (rest : Str) : (s.rxPop b rest).escT0 = s.escT0 := rfl
@[simp] theorem State.rxPop_cmd (s : State) (b : Byte) (rest : Str) : (s.rxPop b rest).cmd = s.cmd := rfl
@[simp] theorem State.rxPop_pollLevel (s : State) (b : Byte) (rest : Str) : (s.rxPop b rest).pollLevel = s.pollLevel :=
  rfl
@[simp] theorem State.rxPop_pollNow (s : State) (b : Byte) (rest : Str) : (s.rxPop b rest).pollNow = s.pollNow := rfl
@[simp] theorem State.rxPop_hung (s : State) (b : Byte) (rest : Str) : (s.rxPop b rest).hung = s.hung := rfl
@[simp] theorem State.rxPop_env (s : State) (b : Byte) (rest : Str) : (s.rxPop b rest).env = { s.env with rx := rest } :=
  rfl
@[simp] theorem State.rxPop_trace (s : State) (b : Byte) (rest : Str) : (s.rxPop b rest).trace = s.trace ++ [.rxPop b] :=
  rfl

/-! ## txWrite -/

@[simp] theorem State.txWrite_cfg (s : State) (b : Byte) : (s.txWrite b).cfg = s.cfg := rfl
@[simp] theorem State.txWrite_lb (s : State) (b : Byte) : (s.txWrite b).lb = s.lb := rfl
@[simp] theorem State.txWrite_lbOvf (s : State) (b : Byte) : (s.txWrite b).lbOvf = s.lbOvf := rfl
@[simp] theorem State.txWrite_dbInit (s : State) (b : Byte) : (s.txWrite b).dbInit = s.dbInit := rfl
@[simp] theorem State.txWrite_dbLevel (s : State) (b : Byte) : (s.txWrite b).dbLevel = s.dbLevel := rfl
@[simp] theorem State.txWrite_dbTchg (s : State) (b : Byte) : (s.txWrite b).dbTchg = s.dbTchg := rfl
@[simp] theorem State.txWrite_dbTstart (s : State) (b : Byte) : (s.txWrite b).dbTstart = s.dbTstart := rfl
@[simp] theorem State.txWrite_dbConf (s : State) (b : Byte) : (s.txWrite b).dbConf = s.dbConf := rfl
@[simp] theorem State.txWrite_outA (s : State) (b : Byte) : (s.txWrite b).outA = s.outA := rfl
@[simp] theorem State.txWrite_outB (s : State) (b : Byte) : (s.txWrite b).outB = s.outB := rfl
@[simp] theorem State.txWrite_seq (s : State) (b : Byte) : (s.txWrite b).seq = s.seq := rfl
@[simp] theorem State.txWrite_escT0 (s : State) (b : Byte) : (s.txWrite b).escT0 = s.escT0 := rfl
@[simp] theorem State.txWrite_cmd (s : State) (b : Byte) : (s.txWrite b).cmd = s.cmd := rfl
@[simp] theorem State.txWrite_pollLevel (s : State) (b : Byte) : (s.txWrite b).pollLevel = s.pollLevel := rfl
@[simp] theorem State.txWrite_pollNow (s : State) (b : Byte) : (s.txWrite b).pollNow = s.pollNow := rfl
@[simp] theorem State.txWrite_hung (s : State) (b : Byte) : (s.txWrite b).hung = s.hung := rfl
@[simp] theorem State.txWrite_env (s : State) (b : Byte) : (s.txWrite b).env = s.env.echo s.cfg.loopback b := rfl
@[simp] theorem State.txWrite_trace (s : State) (b : Byte) : (s.txWrite b).trace = s.trace ++ [.txWrite b] := rfl

/-! ## setLatch -/

@[simp] theorem State.setLatch_cfg (s : State) (k : OutBank) (i : BitIx) (l : Level) : (s.setLatch k i l).cfg = s.cfg :=
  rfl
@[simp] theorem State.setLatch_lb (s : State) (k : OutBank) (i : BitIx) (l : Level) : (s.setLatch k i l).lb = s.lb :=
  rfl
@[simp] theorem State.setLatch_lbOvf (s : State) (k : OutBank) (i : BitIx) (l : Level) : (s.setLatch k i l).lbOvf = s.lbOvf :=
  rfl
@[simp] theorem State.setLatch_dbInit (s : State) (k : OutBank) (i : BitIx) (l : Level) : (s.setLatch k i l).dbInit = s.dbInit :=
  rfl
@[simp] theorem State.setLatch_dbLevel (s : State) (k : OutBank) (i : BitIx) (l : Level) : (s.setLatch k i l).dbLevel = s.dbLevel :=
  rfl
@[simp] theorem State.setLatch_dbTchg (s : State) (k : OutBank) (i : BitIx) (l : Level) : (s.setLatch k i l).dbTchg = s.dbTchg :=
  rfl
@[simp] theorem State.setLatch_dbTstart (s : State) (k : OutBank) (i : BitIx) (l : Level) : (s.setLatch k i l).dbTstart = s.dbTstart :=
  rfl
@[simp] theorem State.setLatch_dbConf (s : State) (k : OutBank) (i : BitIx) (l : Level) : (s.setLatch k i l).dbConf = s.dbConf :=
  rfl
@[simp] theorem State.setLatch_outA (s : State) (k : OutBank) (i : BitIx) (l : Level) : (s.setLatch k i l).outA = s.outA :=
  rfl
@[simp] theorem State.setLatch_outB (s : State) (k : OutBank) (i : BitIx) (l : Level) : (s.setLatch k i l).outB = s.outB :=
  rfl
@[simp] theorem State.setLatch_seq (s : State) (k : OutBank) (i : BitIx) (l : Level) : (s.setLatch k i l).seq = s.seq :=
  rfl
@[simp] theorem State.setLatch_escT0 (s : State) (k : OutBank) (i : BitIx) (l : Level) : (s.setLatch k i l).escT0 = s.escT0 :=
  rfl
@[simp] theorem State.setLatch_cmd (s : State) (k : OutBank) (i : BitIx) (l : Level) : (s.setLatch k i l).cmd = s.cmd :=
  rfl
@[simp] theorem State.setLatch_pollLevel (s : State) (k : OutBank) (i : BitIx) (l : Level) : (s.setLatch k i l).pollLevel = s.pollLevel :=
  rfl
@[simp] theorem State.setLatch_pollNow (s : State) (k : OutBank) (i : BitIx) (l : Level) : (s.setLatch k i l).pollNow = s.pollNow :=
  rfl
@[simp] theorem State.setLatch_hung (s : State) (k : OutBank) (i : BitIx) (l : Level) : (s.setLatch k i l).hung = s.hung :=
  rfl
@[simp] theorem State.setLatch_env (s : State) (k : OutBank) (i : BitIx) (l : Level) : (s.setLatch k i l).env = s.env.setLatch k i l :=
  rfl
@[simp] theorem State.setLatch_trace (s : State) (k : OutBank) (i : BitIx) (l : Level) : (s.setLatch k i l).trace = s.trace :=
  rfl

/-! ## nowRead -/

@[simp] theorem State.nowRead_cfg (s : State) : s.nowRead.cfg = s.cfg := rfl
@[simp] theorem State.nowRead_lb (s : State) : s.nowRead.lb = s.lb := rfl
@[simp] theorem State.nowRead_lbOvf (s : State) : s.nowRead.lbOvf = s.lbOvf := rfl
@[simp] theorem State.nowRead_dbInit (s : State) : s.nowRead.dbInit = s.dbInit := rfl
@[simp] theorem State.nowRead_dbLevel (s : State) : s.nowRead.dbLevel = s.dbLevel := rfl
@[simp] theorem State.nowRead_dbTchg (s : State) : s.nowRead.dbTchg = s.dbTchg := rfl
@[simp] theorem State.nowRead_dbTstart (s : State) : s.nowRead.dbTstart = s.dbTstart := rfl
@[simp] theorem State.nowRead_dbConf (s : State) : s.nowRead.dbConf = s.dbConf := rfl
@[simp] theorem State.nowRead_outA (s : State) : s.nowRead.outA = s.outA := rfl
@[simp] theorem State.nowRead_outB (s : State) : s.nowRead.outB = s.outB := rfl
@[simp] theorem State.nowRead_seq (s : State) : s.nowRead.seq = s.seq := rfl
@[simp] theorem State.nowRead_escT0 (s : State) : s.nowRead.escT0 = s.escT0 := rfl
@[simp] theorem State.nowRead_cmd (s : State) : s.nowRead.cmd = s.cmd := rfl
@[simp] theorem State.nowRead_pollLevel (s : State) : s.nowRead.pollLevel = s.pollLevel := rfl
@[simp] theorem State.nowRead_pollNow (s : State) : s.nowRead.pollNow = s.pollNow := rfl
@[simp] theorem State.nowRead_hung (s : State) : s.nowRead.hung = s.hung := rfl
@[simp] theorem State.nowRead_env (s : State) : s.nowRead.env = s.env.tick s.cfg.timeBits := rfl
@[simp] theorem State.nowRead_trace (s : State) : s.nowRead.trace = s.trace ++ [.nowRead s.clockNow] := rfl

/-! ## logEvent -/

@[simp] theorem State.logEvent_cfg (s : State) (c : LogCode) (a : Byte) : (s.logEvent c a).cfg = s.cfg := rfl
@[simp] theorem State.logEvent_lb (s : State) (c : LogCode) (a : Byte) : (s.logEvent c a).lb = s.lb := rfl
@[simp] theorem State.logEvent_lbOvf (s : State) (c : LogCode) (a : Byte) : (s.logEvent c a).lbOvf = s.lbOvf := rfl
@[simp] theorem State.logEvent_dbInit (s : State) (c : LogCode) (a : Byte) : (s.logEvent c a).dbInit = s.dbInit := rfl
@[simp] theorem State.logEvent_dbLevel (s : State) (c : LogCode) (a : Byte) : (s.logEvent c a).dbLevel = s.dbLevel :=
  rfl
@[simp] theorem State.logEvent_dbTchg (s : State) (c : LogCode) (a : Byte) : (s.logEvent c a).dbTchg = s.dbTchg := rfl
@[simp] theorem State.logEvent_dbTstart (s : State) (c : LogCode) (a : Byte) : (s.logEvent c a).dbTstart = s.dbTstart :=
  rfl
@[simp] theorem State.logEvent_dbConf (s : State) (c : LogCode) (a : Byte) : (s.logEvent c a).dbConf = s.dbConf := rfl
@[simp] theorem State.logEvent_outA (s : State) (c : LogCode) (a : Byte) : (s.logEvent c a).outA = s.outA := rfl
@[simp] theorem State.logEvent_outB (s : State) (c : LogCode) (a : Byte) : (s.logEvent c a).outB = s.outB := rfl
@[simp] theorem State.logEvent_seq (s : State) (c : LogCode) (a : Byte) : (s.logEvent c a).seq = s.seq := rfl
@[simp] theorem State.logEvent_escT0 (s : State) (c : LogCode) (a : Byte) : (s.logEvent c a).escT0 = s.escT0 := rfl
@[simp] theorem State.logEvent_cmd (s : State) (c : LogCode) (a : Byte) : (s.logEvent c a).cmd = s.cmd := rfl
@[simp] theorem State.logEvent_pollLevel (s : State) (c : LogCode) (a : Byte) : (s.logEvent c a).pollLevel = s.pollLevel :=
  rfl
@[simp] theorem State.logEvent_pollNow (s : State) (c : LogCode) (a : Byte) : (s.logEvent c a).pollNow = s.pollNow :=
  rfl
@[simp] theorem State.logEvent_hung (s : State) (c : LogCode) (a : Byte) : (s.logEvent c a).hung = s.hung := rfl
@[simp] theorem State.logEvent_env (s : State) (c : LogCode) (a : Byte) : (s.logEvent c a).env = s.env := rfl
@[simp] theorem State.logEvent_trace (s : State) (c : LogCode) (a : Byte) : (s.logEvent c a).trace = s.trace ++ [.log c a] :=
  rfl

/-! ## gpioWrite -/

@[simp] theorem State.gpioWrite_cfg (s : State) (k : OutBank) (i : BitIx) (l : Level) : (s.gpioWrite k i l).cfg = s.cfg :=
  by cases k <;> rfl
@[simp] theorem State.gpioWrite_lb (s : State) (k : OutBank) (i : BitIx) (l : Level) : (s.gpioWrite k i l).lb = s.lb :=
  by cases k <;> rfl
@[simp] theorem State.gpioWrite_lbOvf (s : State) (k : OutBank) (i : BitIx) (l : Level) : (s.gpioWrite k i l).lbOvf = s.lbOvf :=
  by cases k <;> rfl
@[simp] theorem State.gpioWrite_dbInit (s : State) (k : OutBank) (i : BitIx) (l : Level) : (s.gpioWrite k i l).dbInit = s.dbInit :=
  by cases k <;> rfl
@[simp] theorem State.gpioWrite_dbLevel (s : State) (k : OutBank) (i : BitIx) (l : Level) : (s.gpioWrite k i l).dbLevel = s.dbLevel :=
  by cases k <;> rfl
@[simp] theorem State.gpioWrite_dbTchg (s : State) (k : OutBank) (i : BitIx) (l : Level) : (s.gpioWrite k i l).dbTchg = s.dbTchg :=
  by cases k <;> rfl
@[simp] theorem State.gpioWrite_dbTstart (s : State) (k : OutBank) (i : BitIx) (l : Level) : (s.gpioWrite k i l).dbTstart = s.dbTstart :=
  by cases k <;> rfl
@[simp] theorem State.gpioWrite_dbConf (s : State) (k : OutBank) (i : BitIx) (l : Level) : (s.gpioWrite k i l).dbConf = s.dbConf :=
  by cases k <;> rfl
@[simp] theorem State.gpioWrite_seq (s : State) (k : OutBank) (i : BitIx) (l : Level) : (s.gpioWrite k i l).seq = s.seq :=
  by cases k <;> rfl
@[simp] theorem State.gpioWrite_escT0 (s : State) (k : OutBank) (i : BitIx) (l : Level) : (s.gpioWrite k i l).escT0 = s.escT0 :=
  by cases k <;> rfl
@[simp] theorem State.gpioWrite_cmd (s : State) (k : OutBank) (i : BitIx) (l : Level) : (s.gpioWrite k i l).cmd = s.cmd :=
  by cases k <;> rfl
@[simp] theorem State.gpioWrite_pollLevel (s : State) (k : OutBank) (i : BitIx) (l : Level) : (s.gpioWrite k i l).pollLevel = s.pollLevel :=
  by cases k <;> rfl
@[simp] theorem State.gpioWrite_pollNow (s : State) (k : OutBank) (i : BitIx) (l : Level) : (s.gpioWrite k i l).pollNow = s.pollNow :=
  by cases k <;> rfl
@[simp] theorem State.gpioWrite_hung (s : State) (k : OutBank) (i : BitIx) (l : Level) : (s.gpioWrite k i l).hung = s.hung :=
  by cases k <;> rfl
@[simp] theorem State.gpioWrite_env (s : State) (k : OutBank) (i : BitIx) (l : Level) : (s.gpioWrite k i l).env = s.env :=
  by cases k <;> rfl
@[simp] theorem State.gpioWrite_trace (s : State) (k : OutBank) (i : BitIx) (l : Level) : (s.gpioWrite k i l).trace = s.trace ++ [.gpioWrite k i l] :=
  by cases k <;> rfl

@[simp] theorem State.gpioWrite_outA_outA (s : State) (i : BitIx) (l : Level) :
    (s.gpioWrite .outA i l).outA = setBankLevel s.outA i l := rfl
@[simp] theorem State.gpioWrite_outA_outB (s : State) (i : BitIx) (l : Level) :
    (s.gpioWrite .outA i l).outB = s.outB := rfl
@[simp] theorem State.gpioWrite_outB_outA (s : State) (i : BitIx) (l : Level) :
    (s.gpioWrite .outB i l).outA = s.outA := rfl
@[simp] theorem State.gpioWrite_outB_outB (s : State) (i : BitIx) (l : Level) :
    (s.gpioWrite .outB i l).outB = setBankLevel s.outB i l := rfl

/-! ## The environment -/

@[simp] theorem Env.echo_inA (e : Env) (l : Bool) (b : Byte) : (e.echo l b).inA = e.inA := by cases l <;> rfl
@[simp] theorem Env.echo_inB (e : Env) (l : Bool) (b : Byte) : (e.echo l b).inB = e.inB := by cases l <;> rfl
@[simp] theorem Env.echo_adcRaw (e : Env) (l : Bool) (b : Byte) : (e.echo l b).adcRaw = e.adcRaw := by cases l <;> rfl
@[simp] theorem Env.echo_time (e : Env) (l : Bool) (b : Byte) : (e.echo l b).time = e.time := by cases l <;> rfl
@[simp] theorem Env.echo_script (e : Env) (l : Bool) (b : Byte) : (e.echo l b).script = e.script := by cases l <;> rfl
@[simp] theorem Env.echo_free (e : Env) (l : Bool) (b : Byte) : (e.echo l b).free = e.free := by cases l <;> rfl
@[simp] theorem Env.echo_draws (e : Env) (l : Bool) (b : Byte) : (e.echo l b).draws = e.draws := by cases l <;> rfl
@[simp] theorem Env.echo_lastPoll (e : Env) (l : Bool) (b : Byte) : (e.echo l b).lastPoll = e.lastPoll :=
  by cases l <;> rfl
@[simp] theorem Env.echo_latchA (e : Env) (l : Bool) (b : Byte) : (e.echo l b).latchA = e.latchA := by cases l <;> rfl
@[simp] theorem Env.echo_latchB (e : Env) (l : Bool) (b : Byte) : (e.echo l b).latchB = e.latchB := by cases l <;> rfl
@[simp] theorem Env.echo_capOk (e : Env) (l : Bool) (b : Byte) : (e.echo l b).capOk = e.capOk := by cases l <;> rfl
@[simp] theorem Env.echo_fates (e : Env) (l : Bool) (b : Byte) : (e.echo l b).fates = e.fates := by cases l <;> rfl
@[simp] theorem Env.echo_fateDraws (e : Env) (l : Bool) (b : Byte) : (e.echo l b).fateDraws = e.fateDraws :=
  by cases l <;> rfl

@[simp] theorem Env.heard_inA (e : Env) (l : Bool) (t : Str) : (e.heard l t).inA = e.inA := rfl
@[simp] theorem Env.heard_inB (e : Env) (l : Bool) (t : Str) : (e.heard l t).inB = e.inB := rfl
@[simp] theorem Env.heard_adcRaw (e : Env) (l : Bool) (t : Str) : (e.heard l t).adcRaw = e.adcRaw := rfl
@[simp] theorem Env.heard_time (e : Env) (l : Bool) (t : Str) : (e.heard l t).time = e.time := rfl
@[simp] theorem Env.heard_script (e : Env) (l : Bool) (t : Str) : (e.heard l t).script = e.script := rfl
@[simp] theorem Env.heard_free (e : Env) (l : Bool) (t : Str) : (e.heard l t).free = e.free := rfl
@[simp] theorem Env.heard_draws (e : Env) (l : Bool) (t : Str) : (e.heard l t).draws = e.draws := rfl
@[simp] theorem Env.heard_lastPoll (e : Env) (l : Bool) (t : Str) : (e.heard l t).lastPoll = e.lastPoll := rfl
@[simp] theorem Env.heard_latchA (e : Env) (l : Bool) (t : Str) : (e.heard l t).latchA = e.latchA := rfl
@[simp] theorem Env.heard_latchB (e : Env) (l : Bool) (t : Str) : (e.heard l t).latchB = e.latchB := rfl
@[simp] theorem Env.heard_capOk (e : Env) (l : Bool) (t : Str) : (e.heard l t).capOk = e.capOk := rfl
@[simp] theorem Env.heard_fates (e : Env) (l : Bool) (t : Str) : (e.heard l t).fates = e.fates := rfl
@[simp] theorem Env.heard_fateDraws (e : Env) (l : Bool) (t : Str) : (e.heard l t).fateDraws = e.fateDraws := rfl

@[simp] theorem Env.setLatch_rx (e : Env) (k : OutBank) (i : BitIx) (l : Level) : (e.setLatch k i l).rx = e.rx :=
  by cases k <;> rfl
@[simp] theorem Env.setLatch_inA (e : Env) (k : OutBank) (i : BitIx) (l : Level) : (e.setLatch k i l).inA = e.inA :=
  by cases k <;> rfl
@[simp] theorem Env.setLatch_inB (e : Env) (k : OutBank) (i : BitIx) (l : Level) : (e.setLatch k i l).inB = e.inB :=
  by cases k <;> rfl
@[simp] theorem Env.setLatch_adcRaw (e : Env) (k : OutBank) (i : BitIx) (l : Level) : (e.setLatch k i l).adcRaw = e.adcRaw :=
  by cases k <;> rfl
@[simp] theorem Env.setLatch_time (e : Env) (k : OutBank) (i : BitIx) (l : Level) : (e.setLatch k i l).time = e.time :=
  by cases k <;> rfl
@[simp] theorem Env.setLatch_script (e : Env) (k : OutBank) (i : BitIx) (l : Level) : (e.setLatch k i l).script = e.script :=
  by cases k <;> rfl
@[simp] theorem Env.setLatch_free (e : Env) (k : OutBank) (i : BitIx) (l : Level) : (e.setLatch k i l).free = e.free :=
  by cases k <;> rfl
@[simp] theorem Env.setLatch_draws (e : Env) (k : OutBank) (i : BitIx) (l : Level) : (e.setLatch k i l).draws = e.draws :=
  by cases k <;> rfl
@[simp] theorem Env.setLatch_lastPoll (e : Env) (k : OutBank) (i : BitIx) (l : Level) : (e.setLatch k i l).lastPoll = e.lastPoll :=
  by cases k <;> rfl
@[simp] theorem Env.setLatch_capOk (e : Env) (k : OutBank) (i : BitIx) (l : Level) : (e.setLatch k i l).capOk = e.capOk :=
  by cases k <;> rfl
@[simp] theorem Env.setLatch_fates (e : Env) (k : OutBank) (i : BitIx) (l : Level) : (e.setLatch k i l).fates = e.fates :=
  by cases k <;> rfl
@[simp] theorem Env.setLatch_fateDraws (e : Env) (k : OutBank) (i : BitIx) (l : Level) : (e.setLatch k i l).fateDraws = e.fateDraws :=
  by cases k <;> rfl

@[simp] theorem Env.drawFate_rx (e : Env) : e.drawFate.rx = e.rx := by
  unfold Env.drawFate
  split
  · rfl
  · split
    · rfl
    · split <;> rfl
@[simp] theorem Env.drawFate_inA (e : Env) : e.drawFate.inA = e.inA := by
  unfold Env.drawFate
  split
  · rfl
  · split
    · rfl
    · split <;> rfl
@[simp] theorem Env.drawFate_inB (e : Env) : e.drawFate.inB = e.inB := by
  unfold Env.drawFate
  split
  · rfl
  · split
    · rfl
    · split <;> rfl
@[simp] theorem Env.drawFate_adcRaw (e : Env) : e.drawFate.adcRaw = e.adcRaw := by
  unfold Env.drawFate
  split
  · rfl
  · split
    · rfl
    · split <;> rfl
@[simp] theorem Env.drawFate_time (e : Env) : e.drawFate.time = e.time := by
  unfold Env.drawFate
  split
  · rfl
  · split
    · rfl
    · split <;> rfl
@[simp] theorem Env.drawFate_script (e : Env) : e.drawFate.script = e.script := by
  unfold Env.drawFate
  split
  · rfl
  · split
    · rfl
    · split <;> rfl
@[simp] theorem Env.drawFate_free (e : Env) : e.drawFate.free = e.free := by
  unfold Env.drawFate
  split
  · rfl
  · split
    · rfl
    · split <;> rfl
@[simp] theorem Env.drawFate_draws (e : Env) : e.drawFate.draws = e.draws := by
  unfold Env.drawFate
  split
  · rfl
  · split
    · rfl
    · split <;> rfl
@[simp] theorem Env.drawFate_lastPoll (e : Env) : e.drawFate.lastPoll = e.lastPoll := by
  unfold Env.drawFate
  split
  · rfl
  · split
    · rfl
    · split <;> rfl
@[simp] theorem Env.drawFate_latchA (e : Env) : e.drawFate.latchA = e.latchA := by
  unfold Env.drawFate
  split
  · rfl
  · split
    · rfl
    · split <;> rfl
@[simp] theorem Env.drawFate_latchB (e : Env) : e.drawFate.latchB = e.latchB := by
  unfold Env.drawFate
  split
  · rfl
  · split
    · rfl
    · split <;> rfl
@[simp] theorem Env.drawFate_capOk (e : Env) : e.drawFate.capOk = e.capOk := by
  unfold Env.drawFate
  split
  · rfl
  · split
    · rfl
    · split <;> rfl

@[simp] theorem Env.tick_free (e : Env) (w : Nat) : (e.tick w).free = e.free := by
  unfold Env.tick Env.apply
  split
  · rfl
  · split <;> rfl
@[simp] theorem Env.tick_lastPoll (e : Env) (w : Nat) : (e.tick w).lastPoll = e.lastPoll := by
  unfold Env.tick Env.apply
  split
  · rfl
  · split <;> rfl
@[simp] theorem Env.tick_latchA (e : Env) (w : Nat) : (e.tick w).latchA = e.latchA := by
  unfold Env.tick Env.apply
  split
  · rfl
  · split <;> rfl
@[simp] theorem Env.tick_latchB (e : Env) (w : Nat) : (e.tick w).latchB = e.latchB := by
  unfold Env.tick Env.apply
  split
  · rfl
  · split <;> rfl
@[simp] theorem Env.tick_capOk (e : Env) (w : Nat) : (e.tick w).capOk = e.capOk := by
  unfold Env.tick Env.apply
  split
  · rfl
  · split <;> rfl
@[simp] theorem Env.tick_fates (e : Env) (w : Nat) : (e.tick w).fates = e.fates := by
  unfold Env.tick Env.apply
  split
  · rfl
  · split <;> rfl
@[simp] theorem Env.tick_fateDraws (e : Env) (w : Nat) : (e.tick w).fateDraws = e.fateDraws := by
  unfold Env.tick Env.apply
  split
  · rfl
  · split <;> rfl

@[simp] theorem Env.bringUp_rx (e : Env) (c : Config) : (e.bringUp c).rx = e.rx := rfl
@[simp] theorem Env.bringUp_inA (e : Env) (c : Config) : (e.bringUp c).inA = e.inA := rfl
@[simp] theorem Env.bringUp_inB (e : Env) (c : Config) : (e.bringUp c).inB = e.inB := rfl
@[simp] theorem Env.bringUp_adcRaw (e : Env) (c : Config) : (e.bringUp c).adcRaw = e.adcRaw := rfl
@[simp] theorem Env.bringUp_time (e : Env) (c : Config) : (e.bringUp c).time = e.time := rfl
@[simp] theorem Env.bringUp_script (e : Env) (c : Config) : (e.bringUp c).script = e.script := rfl
@[simp] theorem Env.bringUp_free (e : Env) (c : Config) : (e.bringUp c).free = e.free := rfl
@[simp] theorem Env.bringUp_draws (e : Env) (c : Config) : (e.bringUp c).draws = e.draws := rfl
@[simp] theorem Env.bringUp_capOk (e : Env) (c : Config) : (e.bringUp c).capOk = e.capOk := rfl
@[simp] theorem Env.bringUp_fates (e : Env) (c : Config) : (e.bringUp c).fates = e.fates := rfl
@[simp] theorem Env.bringUp_fateDraws (e : Env) (c : Config) : (e.bringUp c).fateDraws = e.fateDraws := rfl

theorem Env.echo_rx (e : Env) (l : Bool) (b : Byte) : (e.echo l b).rx = e.rx ++ if l then [b] else [] := by
  cases l <;> simp [Env.echo]

/-- The environment only adds arrivals behind the bytes that wait. -/
theorem Env.tick_rx (e : Env) (w : Nat) : ∃ more, (e.tick w).rx = e.rx ++ more := by
  unfold Env.tick Env.apply
  split
  · exact ⟨_, rfl⟩
  · split
    · exact ⟨_, rfl⟩
    · exact ⟨[], by simp⟩

/-- Time does not run backwards (60_exceptions.md R293). -/
theorem Env.time_le_timeAfter (e : Env) (w dt : Nat) : e.time ≤ e.timeAfter w dt := by
  unfold Env.timeAfter
  split <;> omega

/-- Time does not reach the wrap period after the last poll (46_poll_loop.md R266). -/
theorem Env.timeAfter_lt {e : Env} {w p : Nat} (hp : e.lastPoll = some p) (h : e.time < p + 2 ^ w) (dt : Nat) :
    e.timeAfter w dt < p + 2 ^ w := by
  simp only [Env.timeAfter, hp]
  omega

/-- Every passage of time is possible that keeps the next poll within the wrap period (46_poll_loop.md R266). -/
theorem Env.timeAfter_eq {e : Env} {w dt : Nat} (h : ∀ p, e.lastPoll = some p → e.time + dt < p + 2 ^ w) :
    e.timeAfter w dt = e.time + dt := by
  unfold Env.timeAfter
  split
  · rfl
  · have := h _ ‹_›
    omega

/-- Where a move takes the time. -/
theorem Env.tick_time (e : Env) (w : Nat) : ∃ dt, (e.tick w).time = e.timeAfter w dt := by
  unfold Env.tick Env.apply
  split
  · exact ⟨_, rfl⟩
  · split
    · exact ⟨_, rfl⟩
    · refine ⟨0, ?_⟩
      unfold Env.timeAfter
      split <;> omega

theorem Env.time_le_tick (e : Env) (w : Nat) : e.time ≤ (e.tick w).time := by
  obtain ⟨dt, h⟩ := e.tick_time w
  exact h ▸ e.time_le_timeAfter w dt

theorem Env.tick_time_lt {e : Env} {w p : Nat} (hp : e.lastPoll = some p) (h : e.time < p + 2 ^ w) :
    (e.tick w).time < p + 2 ^ w := by
  obtain ⟨dt, ht⟩ := e.tick_time w
  exact ht ▸ Env.timeAfter_lt hp h dt

/-- The counter shows a number of `TIME_BITS` bits (60_exceptions.md R293). -/
theorem Env.counter_lt (e : Env) (w : Nat) : e.counter w < 2 ^ w := Nat.mod_lt _ (Nat.two_pow_pos w)

/-- A scripted move is made as written, whatever the environment. -/
theorem Env.tick_of_script {e : Env} {w : Nat} {m : EnvMove} {rest : List EnvMove} (h : e.script = m :: rest) :
    e.tick w = { e.apply w m with script := rest } := by
  simp [Env.tick, h]

/-- Under `CAP_OK` every call succeeds (20_memory.md R81). -/
theorem Env.fate_of_capOk {e : Env} (h : e.capOk = true) : e.fate = .done := by
  simp [Env.fate, h]

theorem Env.drawFate_of_capOk {e : Env} (h : e.capOk = true) : e.drawFate = e := by
  simp [Env.drawFate, h]

/-- Without it, a scripted fate is taken as written. -/
theorem Env.fate_of_cons {e : Env} {f : CallFate} {rest : List CallFate} (h : e.capOk = false)
    (hf : e.fates = f :: rest) : e.fate = f ∧ e.drawFate = { e with fates := rest } := by
  simp [Env.fate, Env.drawFate, h, hf]

end Sys2Proof.Machine
end

