-- ==== Sys2Proof/Laws/Ops.lean ====
section
/-! SUPPORT. One specification lemma per shared operation, for proofs to cite instead of unfolding it. -/

namespace Sys2Proof.Machine

/-! ## Bits of a bank -/

@[simp] theorem bitLevel_true : bitLevel true = .high := rfl
@[simp] theorem bitLevel_false : bitLevel false = .low := rfl

/-- Writing a bit sets that bit and no other (20_memory.md R66). -/
theorem bankLevel_setBankLevel (v : BitVec 8) (i j : BitIx) (l : Level) :
    bankLevel (setBankLevel v i l) j = if j = i then l else bankLevel v j := by
  have hbit : ((1#8 <<< i.val).getLsbD j.val) = decide (j = i) := by revert i j; decide
  have hj : (j.val : Nat) < 8 := j.isLt
  unfold bankLevel setBankLevel
  cases l <;> simp only [BitVec.getLsbD_or, BitVec.getLsbD_and, BitVec.getLsbD_not, hbit, hj] <;>
    by_cases h : j = i <;> simp [h]

/-- A bank is determined by the levels of its bits. -/
theorem bank_ext {v w : BitVec 8} (h : ∀ i : BitIx, bankLevel v i = bankLevel w i) : v = w := by
  apply BitVec.eq_of_getLsbD_eq
  intro i hi
  have := h ⟨i, hi⟩
  unfold bankLevel bitLevel at this
  cases hv : v.getLsbD i <;> cases hw : w.getLsbD i <;> simp_all

/-- What `GpioWrite` leaves at every output bit. -/
theorem State.outLevel_gpioWrite (s : State) (k k' : OutBank) (i j : BitIx) (l : Level) :
    (s.gpioWrite k i l).outLevel k' j = if k' = k ∧ j = i then l else s.outLevel k' j := by
  cases k <;> cases k' <;> simp [State.outLevel, bankLevel_setBankLevel]

/-! ## Streams -/

/-- The bytes among some events. -/
theorem State.tx_emit_txWrite (s : State) (b : Byte) : (s.emit (.txWrite b)).tx = s.tx ++ [b] := by
  simp [State.tx]

/-- One byte echoed is a string of one byte heard. -/
theorem Env.echo_eq_heard (e : Env) (l : Bool) (b : Byte) : e.echo l b = e.heard l [b] := by
  cases l <;> simp [Env.echo, Env.heard]

theorem Env.heard_heard (e : Env) (l : Bool) (t u : Str) : (e.heard l t).heard l u = e.heard l (t ++ u) := by
  cases l <;> simp [Env.heard]

theorem txEvents_append (t u : Str) : txEvents (t ++ u) = txEvents t ++ txEvents u := by simp [txEvents]

/-! ## Progress -/

@[simp] theorem Progress.andThen_goes {α β : Type} (a : α) (f : α → Progress β) :
    (Progress.goes a).andThen f = f a := rfl
@[simp] theorem Progress.andThen_hangs {α β : Type} (s : State) (f : α → Progress β) :
    (Progress.hangs s).andThen f = .hangs s := rfl
@[simp] theorem Progress.last_goes (s : State) : (Progress.goes s).last = s := rfl
@[simp] theorem Progress.last_hangs (s : State) : (Progress.hangs s).last = { s with hung := true } := rfl

theorem Progress.andThen_assoc {α β γ : Type} (p : Progress α) (f : α → Progress β) (g : β → Progress γ) :
    (p.andThen f).andThen g = p.andThen fun a => (f a).andThen g := by
  cases p <;> rfl

/-! ## Capability calls -/

/-- Everything a call can come to: it returns, having succeeded or failed, or it hangs. -/
theorem State.call_cases {α : Type} (s : State) (f : Option Nat → State → α) :
    (∃ bad, s.call f = .goes (f bad s.drawFate)) ∨ s.call f = .hangs s.drawFate := by
  unfold State.call
  cases s.env.fate with
  | done => exact .inl ⟨none, rfl⟩
  | failed g => exact .inl ⟨some g, rfl⟩
  | hangs => exact .inr rfl

/-- Under `CAP_OK` a call succeeds (20_memory.md R81). -/
theorem State.call_of_capOk {α : Type} {s : State} (h : s.env.capOk = true) (f : Option Nat → State → α) :
    s.call f = .goes (f none s) := by
  simp [State.call, State.drawFate, Env.fate_of_capOk h, Env.drawFate_of_capOk h]

/-- Without it, a call meets its scripted fate. -/
theorem State.call_of_cons {α : Type} {s : State} {c : CallFate} {rest : List CallFate} (h : s.env.capOk = false)
    (hf : s.env.fates = c :: rest) (f : Option Nat → State → α) :
    s.call f =
      match c with
      | .done => .goes (f none { s with env := { s.env with fates := rest } })
      | .failed g => .goes (f (some g) { s with env := { s.env with fates := rest } })
      | .hangs => .hangs { s with env := { s.env with fates := rest } } := by
  obtain ⟨h1, h2⟩ := Env.fate_of_cons h hf
  cases c <;> simp [State.call, State.drawFate, h1, h2]

theorem State.sendStr_append (s : State) (t u : Str) :
    s.sendStr (t ++ u) = (s.sendStr t).andThen fun v => v.sendStr u := by
  induction t generalizing s with
  | nil => rfl
  | cons b t ih => simp [State.sendStr, Progress.andThen_assoc, ih]

/-- Under `CAP_OK` a string sent is the string's bytes in order, each echoed to RX under `LOOPBACK`. -/
theorem State.sendStr_of_capOk {s : State} (h : s.env.capOk = true) (t : Str) :
    s.sendStr t = .goes { s with env := s.env.heard s.cfg.loopback t, trace := s.trace ++ txEvents t } := by
  induction t generalizing s with
  | nil => cases hl : s.cfg.loopback <;> simp [State.sendStr, Env.heard, txEvents]
  | cons b t ih =>
    rw [State.sendStr, State.sendByte, State.call_of_capOk h]
    simp only [Progress.andThen_goes]
    rw [ih (by simpa using h)]
    simp [State.txWrite, State.emit, Env.echo_eq_heard, Env.heard_heard, txEvents]

/-- Under `CAP_OK` a write changes the shadow register and the latch (20_memory.md R66). -/
theorem State.writePin_of_capOk {s : State} (h : s.env.capOk = true) (k : OutBank) (i : BitIx) (l : Level) :
    s.writePin k i l = .goes ((s.setLatch k i l).gpioWrite k i l) := State.call_of_capOk h _

/-- Under `CAP_OK` a read delivers the pin's level at the instant of the call (20_memory.md R67). -/
theorem State.readPin_of_capOk {s : State} (h : s.env.capOk = true) (k : InBank) (i : BitIx) :
    s.readPin k i = .goes (bankLevel (s.tick.env.pins k) i,
      s.tick.emit (.gpioRead k i (bankLevel (s.tick.env.pins k) i))) :=
  State.call_of_capOk (by simpa using h) _

/-- Under `CAP_OK` a sample is the low `ADC_BITS` bits of the raw value (20_memory.md R68). -/
theorem State.readAdc_of_capOk {s : State} (h : s.env.capOk = true) :
    s.readAdc = .goes (s.tick.env.adcRaw % 2 ^ s.cfg.adcBits.val,
      s.tick.emit (.adcRead s.cfg.adcChannel (s.tick.env.adcRaw % 2 ^ s.cfg.adcBits.val))) :=
  State.call_of_capOk (by simpa using h) _

/-! ## What the calls leave alone

Whatever the fates, the calls of a handler or phase touch the environment, the trace, and nothing else. -/

/-- The environment after some calls: bytes may have come back, fates were drawn, and the rest is as it was. -/
def Env.Called (e e' : Env) : Prop :=
  ∃ more fates n, e' = { e with rx := e.rx ++ more, fates := fates, fateDraws := n }

theorem Env.Called.refl (e : Env) : e.Called e := ⟨[], e.fates, e.fateDraws, by simp⟩

theorem Env.Called.trans {e e' e'' : Env} (h : e.Called e') (h' : e'.Called e'') : e.Called e'' := by
  obtain ⟨m, f, n, rfl⟩ := h
  obtain ⟨m', f', n', rfl⟩ := h'
  exact ⟨m ++ m', f', n', by simp⟩

theorem Env.called_drawFate (e : Env) : e.Called e.drawFate := by
  unfold Env.drawFate
  split
  · exact .refl e
  · split
    · exact ⟨[], _, e.fateDraws, by simp; rfl⟩
    · split
      · exact ⟨[], e.fates, _, by simp; rfl⟩
      · exact .refl e

theorem Env.called_echo (e : Env) (l : Bool) (b : Byte) : e.Called (e.echo l b) := by
  cases l
  · exact .refl e
  · exact ⟨[b], e.fates, e.fateDraws, rfl⟩

/-- Everything a byte sent can come to. -/
theorem State.sendByte_cases (s : State) (b : Byte) :
    (∃ e, s.env.Called e ∧ s.sendByte b = .goes { s with env := e, trace := s.trace ++ [.txWrite b] }) ∨
    (∃ e, s.env.Called e ∧ s.sendByte b = .hangs { s with env := e }) := by
  unfold State.sendByte State.call
  cases s.env.fate
  · exact .inl ⟨_, (Env.called_drawFate s.env).trans (Env.called_echo _ s.cfg.loopback b), rfl⟩
  · exact .inl ⟨_, Env.called_drawFate s.env, rfl⟩
  · exact .inr ⟨_, Env.called_drawFate s.env, rfl⟩

/-- Everything a string sent can come to: it is sent, or the first k bytes are and the next one hangs. -/
theorem State.sendStr_cases (s : State) (t : Str) :
    (∃ e, s.env.Called e ∧ s.sendStr t = .goes { s with env := e, trace := s.trace ++ txEvents t }) ∨
    (∃ e k, s.env.Called e ∧ k < t.length ∧
      s.sendStr t = .hangs { s with env := e, trace := s.trace ++ txEvents (t.take k) }) := by
  induction t generalizing s with
  | nil => exact .inl ⟨s.env, .refl _, by simp [State.sendStr, txEvents]⟩
  | cons b t ih =>
    rw [State.sendStr]
    rcases s.sendByte_cases b with ⟨e, he, h⟩ | ⟨e, he, h⟩ <;> rw [h]
    · simp only [Progress.andThen_goes]
      rcases ih { s with env := e, trace := s.trace ++ [.txWrite b] } with ⟨e', he', h'⟩ | ⟨e', k, he', hk, h'⟩ <;> rw [h']
      · exact .inl ⟨e', he.trans he', by simp [txEvents]⟩
      · exact .inr ⟨e', k + 1, he.trans he', by simpa using hk, by simp [txEvents]⟩
    · exact .inr ⟨e, 0, he, by simp, by simp [txEvents]⟩

/-- Everything a read of a pin can come to. -/
theorem State.readPin_cases (s : State) (k : InBank) (i : BitIx) :
    (∃ e l, s.tick.env.Called e ∧
      s.readPin k i = .goes (l, { s with env := e, trace := s.trace ++ [.gpioRead k i l] })) ∨
    (∃ e, s.tick.env.Called e ∧ s.readPin k i = .hangs { s with env := e }) := by
  unfold State.readPin
  rcases s.tick.call_cases _ with ⟨bad, h⟩ | h <;> rw [h]
  · exact .inl ⟨_, _, Env.called_drawFate s.tick.env, rfl⟩
  · exact .inr ⟨_, Env.called_drawFate s.tick.env, rfl⟩

/-- Everything a sample of the converter can come to. -/
theorem State.readAdc_cases (s : State) :
    (∃ e n, s.tick.env.Called e ∧
      s.readAdc = .goes (n, { s with env := e, trace := s.trace ++ [.adcRead s.cfg.adcChannel n] })) ∨
    (∃ e, s.tick.env.Called e ∧ s.readAdc = .hangs { s with env := e }) := by
  unfold State.readAdc
  rcases s.tick.call_cases _ with ⟨bad, h⟩ | h <;> rw [h]
  · exact .inl ⟨_, _, Env.called_drawFate s.tick.env, rfl⟩
  · exact .inr ⟨_, Env.called_drawFate s.tick.env, rfl⟩

/-- Everything a write of a pin can come to: the shadow register is written, and the latch follows or not; or it
hangs. -/
theorem State.writePin_cases (s : State) (k : OutBank) (i : BitIx) (l : Level) :
    (∃ e, s.env.Called e ∧ s.writePin k i l = .goes (({ s with env := e } : State).setLatch k i l |>.gpioWrite k i l)) ∨
    (s.env.capOk = false ∧ ∃ e, s.env.Called e ∧
      s.writePin k i l = .goes (({ s with env := e } : State).gpioWrite k i l)) ∨
    (∃ e, s.env.Called e ∧ s.writePin k i l = .hangs { s with env := e }) := by
  cases hc : s.env.capOk
  · unfold State.writePin State.call
    cases s.env.fate
    · exact .inl ⟨_, Env.called_drawFate s.env, rfl⟩
    · exact .inr (.inl ⟨rfl, _, Env.called_drawFate s.env, rfl⟩)
    · exact .inr (.inr ⟨_, Env.called_drawFate s.env, rfl⟩)
  · exact .inl ⟨s.env, .refl _, State.writePin_of_capOk hc k i l⟩

/-! ## The latch -/

theorem Env.latchLevel_setLatch (e : Env) (k k' : OutBank) (i j : BitIx) (l : Level) :
    (e.setLatch k i l).latchLevel k' j = if k' = k ∧ j = i then l else e.latchLevel k' j := by
  cases k <;> cases k' <;> simp [Env.latchLevel, Env.setLatch, bankLevel_setBankLevel]

/-! ## The mappers -/

theorem relayMap_eq_some {id : Nat} {k : OutBank} {i : BitIx} (h : relayMap id = some (k, i)) :
    (1 ≤ id ∧ id ≤ 8 ∧ k = .outA ∧ i.val = id - 1) ∨ (9 ≤ id ∧ id ≤ 11 ∧ k = .outB ∧ i.val = id - 9) := by
  unfold relayMap at h
  split at h
  · rename_i hr
    obtain ⟨rfl, rfl⟩ : OutBank.outA = k ∧ Fin.ofNat 8 (id - 1) = i := by simpa using h
    exact .inl ⟨hr.1, hr.2, rfl, by simp only [Fin.val_ofNat]; omega⟩
  · split at h
    · rename_i hr
      obtain ⟨rfl, rfl⟩ : OutBank.outB = k ∧ Fin.ofNat 8 (id - 9) = i := by simpa using h
      exact .inr ⟨hr.1, hr.2, rfl, by simp only [Fin.val_ofNat]; omega⟩
    · cases h

theorem relayMap_isSome {id : Nat} : (relayMap id).isSome = true ↔ 1 ≤ id ∧ id ≤ 11 := by
  unfold relayMap
  split
  · simp; omega
  · split <;> simp <;> omega

/-! ## The line assembler -/

/-- Everything the terminator arm of `feed` can do. -/
theorem State.feedTerminator_cases (s : State) :
    (s.lbOvf = true ∧ s.feedTerminator =
      { s with lb := [], lbOvf := false, cmd := none, trace := s.trace ++ [.log .lineOverflow 0] }) ∨
    (s.lbOvf = false ∧ s.lb ≠ [] ∧ s.feedTerminator = { s with lb := [], cmd := some (trim s.cfg.trimSet s.lb) }) ∨
    (s.lbOvf = false ∧ s.lb = [] ∧ s.feedTerminator = { s with cmd := none }) := by
  unfold State.feedTerminator
  cases h : s.lbOvf
  · by_cases hl : s.lb = []
    · exact .inr (.inr ⟨rfl, hl, by simp [hl]⟩)
    · exact .inr (.inl ⟨rfl, hl, by simp [List.length_pos_iff.mpr hl]⟩)
  · exact .inl ⟨rfl, rfl⟩

/-- The buffer is full: there is a bound and it is reached (40_line_assembler.md R134). -/
theorem State.lbFull_eq_true {s : State} : s.lbFull = true ↔ ∃ m, s.cfg.lineMax = some m ∧ m ≤ s.lb.length := by
  unfold State.lbFull
  cases s.cfg.lineMax <;> simp

/-- The buffer has room: it is below the bound, if there is one (40_line_assembler.md R133). -/
theorem State.lbFull_eq_false {s : State} : s.lbFull = false ↔ ∀ m, s.cfg.lineMax = some m → s.lb.length < m := by
  unfold State.lbFull
  cases s.cfg.lineMax <;> simp

/-- Everything the data arm of `feed` can do. -/
theorem State.feedData_cases (s : State) (b : Byte) :
    (s.lbFull = true ∧ s.feedData b = { s with lbOvf := true, cmd := none }) ∨
    (s.lbFull = false ∧ s.feedData b = { s with lb := s.lb ++ [b], cmd := none }) := by
  unfold State.feedData
  cases h : s.lbFull <;> simp

/-! ## The sample and the escalation -/

/-- The state after a sample: its two registers, the environment and the trace have changed, and nothing else. -/
theorem State.sample_cases (s : State) :
    (∃ e l, s.tick.env.Called e ∧ s.sample = .goes { s with
      pollLevel := l, pollNow := (e.tick s.cfg.timeBits).counter s.cfg.timeBits,
      env := { e.tick s.cfg.timeBits with lastPoll := some (e.tick s.cfg.timeBits).time },
      trace := s.trace ++ [.gpioRead s.cfg.buttonBank s.cfg.buttonBit l,
        .nowRead ((e.tick s.cfg.timeBits).counter s.cfg.timeBits)] }) ∨
    (∃ e, s.tick.env.Called e ∧ s.sample = .hangs { s with env := e }) := by
  unfold State.sample
  rcases s.readPin_cases s.cfg.buttonBank s.cfg.buttonBit with ⟨e, l, he, h⟩ | ⟨e, he, h⟩ <;> rw [h]
  · exact .inl ⟨e, l, he, by simp [State.sampleTime, State.nowRead, State.emit, State.tick, State.clockNow]⟩
  · exact .inr ⟨e, he, rfl⟩

/-- Under `CAP_OK` the sample is the button's level after one move of the environment, and the time after one more. -/
theorem State.sample_of_capOk {s : State} (h : s.env.capOk = true) :
    s.sample = .goes (({ s.tick.emit (.gpioRead s.cfg.buttonBank s.cfg.buttonBit
        (bankLevel (s.tick.env.pins s.cfg.buttonBank) s.cfg.buttonBit)) with
      pollLevel := bankLevel (s.tick.env.pins s.cfg.buttonBank) s.cfg.buttonBit } : State).sampleTime) := by
  simp [State.sample, State.readPin_of_capOk h]

/-- The beginning of the pause, all of it. -/
theorem State.beginPause_eq (s : State) :
    s.beginPause = { s with
      env := s.env.tick s.cfg.timeBits, trace := s.trace ++ [.nowRead s.clockNow],
      escT0 := s.clockNow, seq := .escWait } := rfl

end Sys2Proof.Machine
end

