-- ==== Sys2Proof/Laws/PerInstr.lean ====
section
/-! SUPPORT. Statements made of every instruction as syntax, one lemma per constructor. -/

/-! ## The encoder writes what can reach the block

For a well-formed instruction in a well-formed configuration: every byte and every vector can, and a Command can if it
holds no terminator and is trimmed (30_encoding.md R93, R104). -/

namespace Sys2Proof.Laws.EncodingProper

def Statement (i : Instr) : Prop := ∀ g : Config, g.wf = true → i.wf g = true → (encode i).proper g = true

/-- A text without terminators that begins and ends with bytes of a canonical text is proper. -/
theorem proper_of_ends {g : Config} (hg : g.wf = true) {a b : Byte} {s r f : Str} (hs : s = a :: r) (hf : s = f ++ [b])
    (ha : a ∈ canonicalBytes ∨ isDigit a = true) (hb : b ∈ canonicalBytes ∨ isDigit b = true)
    (ht : ∀ x ∈ s, isTerminator x = false) : properCommand g s = true :=
  properCommand_iff.mpr ⟨ht, trim_eq_self hs hf (Config.wf_trimSet hg ha) (Config.wf_trimSet hg hb)⟩

/-- No digit is a terminator. -/
theorem digits2_no_terminator : ∀ n : Fin 100, ∀ x ∈ digits2 n.val, isTerminator x = false := by decide

/-- A number between two literal texts brings no terminator with it. -/
theorem no_terminator {n : Nat} (hn : n < 100) {p q : Str} (hp : ∀ x ∈ p, isTerminator x = false)
    (hq : ∀ x ∈ q, isTerminator x = false) : ∀ x ∈ p ++ digits2 n ++ q, isTerminator x = false := by
  intro x hx
  rcases List.mem_append.mp hx with hx | hx
  · exact (List.mem_append.mp hx).elim (hp x) (digits2_no_terminator ⟨n, hn⟩ x)
  · exact hq x hx

theorem digits2_last : ∀ n : Fin 100, isDigit (BitVec.ofNat 8 (0x30 + n.val % 10)) = true := by decide

/-- The two texts of format O. -/
theorem out_proper {g : Config} (hg : g.wf = true) {n : Nat} (hn : n < 100) :
    properCommand g (textOut ++ digits2 n ++ textOn) = true ∧
    properCommand g (textOut ++ digits2 n ++ textOff) = true :=
  ⟨proper_of_ends (f := textOut ++ digits2 n ++ [0x6F]) (b := 0x6E) hg rfl rfl (by decide) (by decide)
    (no_terminator hn (by decide) (by decide)),
   proper_of_ends (f := textOut ++ digits2 n ++ [0x6F, 0x66]) (b := 0x66) hg rfl rfl (by decide) (by decide)
    (no_terminator hn (by decide) (by decide))⟩

/-- The text of format I. -/
theorem in_proper {g : Config} (hg : g.wf = true) {n : Nat} (hn : n < 100) :
    properCommand g (textIn ++ digits2 n) = true :=
  proper_of_ends (f := textIn ++ [BitVec.ofNat 8 (0x30 + n / 10 % 10)]) hg rfl rfl (by decide)
    (.inr (digits2_last ⟨n, hn⟩))
    (by simpa using no_terminator (q := []) hn (by decide) (by decide))

theorem byteCr : Statement .byteCr := fun _ _ _ => rfl
theorem byteLf : Statement .byteLf := fun _ _ _ => rfl
theorem byteData (b : Byte) : Statement (.byteData b) := fun _ _ _ => rfl

theorem hardcheck : Statement .hardcheck := fun _ hg _ =>
  proper_of_ends (f := [0x23, 0x23, 0x68, 0x61, 0x72, 0x64, 0x63, 0x68, 0x65, 0x63]) (b := 0x6B) hg rfl rfl
    (by decide) (by decide) (by decide)

theorem outOn (id : Nat) : Statement (.outOn id) := fun g hg h => by
  have h : 1 ≤ id ∧ id ≤ 11 := by simpa [Instr.wf] using h
  exact (out_proper hg (by omega)).1

theorem outOff (id : Nat) : Statement (.outOff id) := fun g hg h => by
  have h : 1 ≤ id ∧ id ≤ 11 := by simpa [Instr.wf] using h
  exact (out_proper hg (by omega)).2

theorem outRange (n : Nat) : Statement (.outRange n) := fun g hg h => by
  have h : n = 0 ∨ 12 ≤ n ∧ n ≤ 99 := by simpa [Instr.wf] using h
  exact (out_proper hg (by omega)).1

theorem inRead (id : Nat) : Statement (.inRead id) := fun g hg h => by
  have h : 1 ≤ id ∧ id ≤ 8 := by simpa [Instr.wf] using h
  exact in_proper hg (by omega)

theorem inRange (n : Nat) : Statement (.inRange n) := fun g hg h => by
  have h : n = 0 ∨ 9 ≤ n ∧ n ≤ 99 := by simpa [Instr.wf] using h
  exact in_proper hg (by omega)

theorem ad : Statement .ad := fun _ hg _ =>
  proper_of_ends (f := [0x24, 0x61]) (b := 0x64) hg rfl rfl (by decide) (by decide) (by decide)

theorem unknown (text : Str) : Statement (.unknown text) := fun g _ h => by
  simp only [Instr.wf, Bool.and_eq_true] at h
  exact h.1.1.1.1

theorem dbFirst : Statement .dbFirst := fun _ _ _ => rfl
theorem dbAccept : Statement .dbAccept := fun _ _ _ => rfl
theorem dbReject : Statement .dbReject := fun _ _ _ => rfl
theorem dbFire : Statement .dbFire := fun _ _ _ => rfl
theorem dbHold : Statement .dbHold := fun _ _ _ => rfl

end Sys2Proof.Laws.EncodingProper
end

