-- ==== Sys2Proof/Laws/Step.lean ====
section
/-! SUPPORT. What a step can do: the cases of the fetch, the step for each, and the shape of an instruction's effect on
each family, for proofs to cite instead of unfolding the step. -/

namespace Sys2Proof.Machine

/-- Everything the step can fetch. -/
theorem State.fetch_cases (s : State) :
    (s.hung = true ∧ s.fetch = .stuck) ∨
    (s.hung = false ∧ s.seq = .drain ∧ ∃ c, s.cmd = some c ∧
      s.fetch = .run (decodeCommand s.cfg c) { s with cmd := none }) ∨
    (s.hung = false ∧ s.seq = .drain ∧ s.cmd = none ∧ ∃ b rest, s.tick.env.rx = b :: rest ∧
      s.fetch = .run (decodeByte b) (s.tick.rxPop b rest)) ∨
    (s.hung = false ∧ s.seq = .drain ∧ s.cmd = none ∧ s.tick.env.rx = [] ∧
      s.fetch = .move { s.tick with seq := .debounce }) ∨
    (s.hung = false ∧ s.seq = .debounce ∧ ∃ u, s.sample = .goes u ∧ s.fetch = .run (decodePoll u.ev) u) ∨
    (s.hung = false ∧ s.seq = .debounce ∧ ∃ u, s.sample = .hangs u ∧ s.fetch = .move { u with hung := true }) ∨
    (s.hung = false ∧ s.seq = .escWait ∧ s.fetch = .move s.escWaitPoll) ∨
    (s.hung = false ∧ s.seq = .escSend ∧ s.fetch = .move s.escSendText.last) := by
  cases hh : s.hung with
  | true => exact .inl ⟨rfl, by simp [State.fetch, hh]⟩
  | false =>
    refine .inr ?_
    have hf : s.fetch = s.fetchPhase := by simp [State.fetch, hh]
    rw [hf]
    cases hs : s.seq with
    | drain =>
      cases hc : s.cmd with
      | some c => exact .inl ⟨rfl, rfl, c, rfl, by simp only [State.fetchPhase, State.fetchDrain, hs, hc, hh]⟩
      | none =>
        cases hr : s.tick.env.rx with
        | nil =>
          exact .inr (.inr (.inl ⟨rfl, rfl, rfl, rfl, by simp only [State.fetchPhase, State.fetchDrain, hs, hc, hr]⟩))
        | cons b rest =>
          exact .inr (.inl ⟨rfl, rfl, rfl, b, rest, rfl, by simp only [State.fetchPhase, State.fetchDrain, hs, hc, hr]⟩)
    | debounce =>
      cases hp : s.sample with
      | goes u =>
        exact .inr (.inr (.inr (.inl ⟨rfl, rfl, u, rfl, by simp [State.fetchPhase, State.fetchDebounce, hs, hp]⟩)))
      | hangs u =>
        exact .inr (.inr (.inr (.inr (.inl
          ⟨rfl, rfl, u, rfl, by simp [State.fetchPhase, State.fetchDebounce, hs, hp]⟩))))
    | escWait => exact .inr (.inr (.inr (.inr (.inr (.inl ⟨rfl, rfl, by simp [State.fetchPhase, hs]⟩)))))
    | escSend => exact .inr (.inr (.inr (.inr (.inr (.inr ⟨rfl, rfl, by simp [State.fetchPhase, hs]⟩)))))

/-- Everything a step that answers next can be. -/
theorem step_cases {s t : State} (h : step s = .next t) : s.hung = false ∧
    ((s.seq = .drain ∧ ∃ c, s.cmd = some c ∧ exec (decodeCommand s.cfg c) { s with cmd := none } = .next t) ∨
    (s.seq = .drain ∧ s.cmd = none ∧ ∃ b rest, s.tick.env.rx = b :: rest ∧
      exec (decodeByte b) (s.tick.rxPop b rest) = .next t) ∨
    (s.seq = .drain ∧ s.cmd = none ∧ s.tick.env.rx = [] ∧ t = { s.tick with seq := .debounce }) ∨
    (s.seq = .debounce ∧ ∃ u, s.sample = .goes u ∧ exec (decodePoll u.ev) u = .next t) ∨
    (s.seq = .debounce ∧ ∃ u, s.sample = .hangs u ∧ t = { u with hung := true }) ∨
    (s.seq = .escWait ∧ t = s.escWaitPoll) ∨
    (s.seq = .escSend ∧ t = s.escSendText.last)) := by
  unfold step at h
  rcases s.fetch_cases with ⟨-, hf⟩ | ⟨hh, hs, c, hc, hf⟩ | ⟨hh, hs, hc, b, rest, hr, hf⟩ | ⟨hh, hs, hc, hr, hf⟩ |
    ⟨hh, hs, u, hu, hf⟩ | ⟨hh, hs, u, hu, hf⟩ | ⟨hh, hs, hf⟩ | ⟨hh, hs, hf⟩ <;> rw [hf] at h
  · cases h
  · exact ⟨hh, .inl ⟨hs, c, hc, h⟩⟩
  · exact ⟨hh, .inr (.inl ⟨hs, hc, b, rest, hr, h⟩)⟩
  · exact ⟨hh, .inr (.inr (.inl ⟨hs, hc, hr, by cases h; rfl⟩))⟩
  · exact ⟨hh, .inr (.inr (.inr (.inl ⟨hs, u, hu, h⟩)))⟩
  · exact ⟨hh, .inr (.inr (.inr (.inr (.inl ⟨hs, u, hu, by cases h; rfl⟩))))⟩
  · exact ⟨hh, .inr (.inr (.inr (.inr (.inr (.inl ⟨hs, by cases h; rfl⟩)))))⟩
  · exact ⟨hh, .inr (.inr (.inr (.inr (.inr (.inr ⟨hs, by cases h; rfl⟩)))))⟩

/-! ## The shape of an effect, whatever the fates of its calls -/

/-- Everything `setRelay` can do when it answers next: the shadow register's bit is written, and the latch follows
(always under CAP_OK) or not; or the call hangs and nothing is written. -/
theorem State.setRelay_eq_next {s t : State} {id : Nat} {on : Bool} (h : s.setRelay id on = .next t) :
    ∃ k i e, relayMap id = some (k, i) ∧ s.env.Called e ∧
      (t = ((({ s with env := e } : State).setLatch k i (relayLevel on)).gpioWrite k i (relayLevel on)) ∨
      (s.env.capOk = false ∧ t = ({ s with env := e } : State).gpioWrite k i (relayLevel on)) ∨
      t = { s with env := e, hung := true }) := by
  unfold State.setRelay at h
  split at h
  · rename_i k i hm
    cases h
    rcases s.writePin_cases k i (relayLevel on) with ⟨e, he, h⟩ | ⟨hc, e, he, h⟩ | ⟨e, he, h⟩ <;> rw [h]
    · exact ⟨k, i, e, hm, he, .inl rfl⟩
    · exact ⟨k, i, e, hm, he, .inr (.inl ⟨hc, rfl⟩)⟩
    · exact ⟨k, i, e, hm, he, .inr (.inr rfl)⟩
  · cases h

/-- Everything `readInput` can do when it answers next: the environment moves and is sent the response or the first
bytes of it, and the calls are recorded; no register changes. -/
theorem State.readInput_eq_next {s t : State} {id : Nat} (h : s.readInput id = .next t) :
    ∃ k i e new hung, inputMap id = some (k, i) ∧ s.tick.env.Called e ∧
      t = { s with env := e, trace := s.trace ++ new, hung := hung } ∧
      ∀ ev ∈ new, (∃ l, ev = .gpioRead k i l) ∨ (∃ b, ev = .txWrite b) ∨ ∃ c a, ev = .log c a := by
  unfold State.readInput at h
  split at h
  · rename_i k i hm
    cases h
    unfold State.answerInput
    rcases s.readPin_cases k i with ⟨e, l, he, hr⟩ | ⟨e, he, hr⟩ <;> rw [hr]
    · simp only [Progress.andThen_goes]
      rcases ({ s with env := e, trace := s.trace ++ [.gpioRead k i l] } : State).sendStr_cases (inputResponse l) with
        ⟨e', he', hw⟩ | ⟨e', n, he', -, hw⟩ <;> rw [hw]
      · refine ⟨k, i, e', _, s.hung, hm, he.trans he', by
          simp [State.logEvent, State.emit]; rfl, ?_⟩
        simp only [txEvents, List.mem_cons, List.mem_append, List.mem_map, List.not_mem_nil, or_false]
        rintro ev (rfl | ⟨b, -, rfl⟩ | rfl)
        · exact .inl ⟨l, rfl⟩
        · exact .inr (.inl ⟨b, rfl⟩)
        · exact .inr (.inr ⟨_, _, rfl⟩)
      · refine ⟨k, i, e', _, true, hm, he.trans he', by simp; rfl, ?_⟩
        simp only [txEvents, List.mem_cons, List.mem_map]
        rintro ev (rfl | ⟨b, -, rfl⟩)
        · exact .inl ⟨l, rfl⟩
        · exact .inr (.inl ⟨b, rfl⟩)
    · exact ⟨k, i, e, [], true, hm, he, by simp, by simp⟩
  · cases h

/-- Everything `sampleAnalog` can do. -/
theorem State.sampleAnalog_cases (s : State) :
    ∃ e new hung, s.tick.env.Called e ∧
      s.sampleAnalog.last = { s with env := e, trace := s.trace ++ new, hung := hung } ∧
      ∀ ev ∈ new, (∃ n, ev = .adcRead s.cfg.adcChannel n) ∨ ∃ b, ev = .txWrite b := by
  unfold State.sampleAnalog
  rcases s.readAdc_cases with ⟨e, n, he, hr⟩ | ⟨e, he, hr⟩ <;> rw [hr]
  · simp only [Progress.andThen_goes]
    rcases ({ s with env := e, trace := s.trace ++ [.adcRead s.cfg.adcChannel n] } : State).sendStr_cases
      (fmt4 n ++ [charCR]) with ⟨e', he', hw⟩ | ⟨e', m, he', -, hw⟩ <;> rw [hw]
    · refine ⟨e', _, s.hung, he.trans he', by simp; rfl, ?_⟩
      simp only [txEvents, List.mem_cons, List.mem_map]
      rintro ev (rfl | ⟨b, -, rfl⟩)
      · exact .inl ⟨n, rfl⟩
      · exact .inr ⟨b, rfl⟩
    · refine ⟨e', _, true, he.trans he', by simp; rfl, ?_⟩
      simp only [txEvents, List.mem_cons, List.mem_map]
      rintro ev (rfl | ⟨b, -, rfl⟩)
      · exact .inl ⟨n, rfl⟩
      · exact .inr ⟨b, rfl⟩
  · exact ⟨e, [], true, he, by simp, by simp⟩

/-- Everything the escalation's entry can do: the CR is written, the time captured and the pause begun; or the CR's
write hangs. -/
theorem State.escalate_cases (s : State) :
    (∃ e, s.env.Called e ∧ s.escalate.last =
      ({ s with env := e, trace := s.trace ++ [.txWrite charCR] } : State).beginPause) ∨
    (∃ e, s.env.Called e ∧ s.escalate.last = { s with env := e, hung := true }) := by
  unfold State.escalate
  rcases s.sendByte_cases charCR with ⟨e, he, h⟩ | ⟨e, he, h⟩ <;> rw [h]
  · exact .inl ⟨e, he, rfl⟩
  · exact .inr ⟨e, he, rfl⟩

/-- Everything the escalation's text can do: all of it is written and the drain phase begins; or a write hangs. -/
theorem State.escSendText_cases (s : State) :
    (∃ e, s.env.Called e ∧ s.escSendText.last = { s with
      seq := .drain, env := e, trace := s.trace ++ txEvents escalationText }) ∨
    (∃ e k, s.env.Called e ∧ s.escSendText.last = { s with
      env := e, trace := s.trace ++ txEvents (escalationText.take k), hung := true }) := by
  unfold State.escSendText
  rcases s.sendStr_cases escalationText with ⟨e, he, h⟩ | ⟨e, k, he, -, h⟩ <;> rw [h]
  · exact .inl ⟨e, he, rfl⟩
  · exact .inr ⟨e, k, he, rfl⟩

/-- Everything a look at the clock in `ESC_WAIT` does. -/
theorem State.escWaitPoll_eq (s : State) (h : s.seq = .escWait) :
    s.escWaitPoll = { s with
      env := s.env.tick s.cfg.timeBits, trace := s.trace ++ [.nowRead s.clockNow],
      seq := if s.cfg.escDelay ≤ elapsed s.cfg.timeBits s.clockNow s.escT0 then .escSend else .escWait } := by
  unfold State.escWaitPoll
  split <;> simp [State.nowRead, State.emit, State.tick, h]

end Sys2Proof.Machine
end

