-- ==== Sys2Proof/Tests/Slice0.lean ====
section
/-! SUPPORT. Tests: expected results are those of 95_test_vectors.md (named by their ids) and of the encodings of
30_encoding.md, and `test_meets_…` shows, for a statement of Obligations.lean, data that meet its hypotheses. -/

namespace Sys2Proof.Tests

open Sys2Proof.Machine

/-! ## Helpers -/

/-- An environment that stands still: nothing arrives, the pins are as given. -/
def still (inA inB : BitVec 8) (adc time : Nat) : Env where
  rx := []
  inA := inA
  inB := inB
  adcRaw := adc
  time := time
  script := []
  free := false
  draws := 0
  lastPoll := none
  latchA := 0xFF
  latchB := 0x07
  capOk := true
  fates := []
  fateDraws := 0

/-- The state after reset with the button HIGH, every input HIGH, raw count 7, at 1001 ms. -/
def base : State := { State.reset with env := still 0xFF 0xFF 7 1001 }

/-- base in the debounce phase, after a first poll at time 0 that found the button at a level. -/
def polled (l : Level) : State := { base with seq := .debounce, dbInit := true, dbLevel := l }

/-- A sample held by the poll registers. -/
def withSample (s : State) (l : Level) (now : Timestamp) : State := { s with pollLevel := l, pollNow := now }

/-- base with a line buffer. -/
def withLine (lb : Str) : State := { base with lb := lb }

/-- The outcome is a next state with a property. -/
def nxt (o : Host.Outcome State Fault Refusal) (p : State → Bool) : Bool :=
  match o with
  | .next t => p t
  | .fault _ => false
  | .refused _ => false

def isHang (o : Host.Outcome State Fault Refusal) : Bool :=
  match o with
  | .fault .capabilityHang => true
  | _ => false

/-- The button's sample is taken. -/
def sampled (s : State) : Bool :=
  match s.sample with
  | .goes _ => true
  | .hangs _ => false

/-- base in a phase and without CAP_OK, the fates of its next calls given. -/
def fated (p : Phase) (fates : List CallFate) : State :=
  { base with seq := p, env := { base.env with capOk := false, fates := fates } }

def isRefused (o : Host.Outcome State Fault Refusal) (r : Refusal) : Bool :=
  match o with
  | .refused r' => decide (r' = r)
  | _ => false

/-- The debounce registers as 95_test_vectors.md writes them. -/
def dbRegs (s : State) : Bool × Level × Timestamp × Timestamp × Bool :=
  (s.dbInit, s.dbLevel, s.dbTchg, s.dbTstart, s.dbConf)

/-- The case a poll selects, run. -/
def poll (s : State) : Host.Outcome State Fault Refusal := exec (decodePoll s.ev) s

/-- The reference configuration, and the same with the other reading of numbers. -/
abbrev ref : Config := .reference
def atol : Config := { Config.reference with numParse := .cAtol }

/-! ## WellFormed: each check refuses an ill-formed term -/

theorem test_wf_byteData : (Instr.byteData 0x0D).wf ref = false ∧ (Instr.byteData 0x0A).wf ref = false := by decide
theorem test_wf_outOn : (Instr.outOn 0).wf ref = false ∧ (Instr.outOn 12).wf ref = false := by decide
theorem test_wf_outOff : (Instr.outOff 0).wf ref = false ∧ (Instr.outOff 12).wf ref = false := by decide
theorem test_wf_outRange :
    (Instr.outRange 1).wf ref = false ∧ (Instr.outRange 11).wf ref = false ∧ (Instr.outRange 100).wf ref = false := by decide
theorem test_wf_inRead : (Instr.inRead 0).wf ref = false ∧ (Instr.inRead 9).wf ref = false := by decide
theorem test_wf_inRange :
    (Instr.inRange 1).wf ref = false ∧ (Instr.inRange 8).wf ref = false ∧ (Instr.inRange 100).wf ref = false := by decide
theorem test_wf_unknown_terminator : (Instr.unknown [0x41, 0x0D, 0x41]).wf ref = false := by decide
theorem test_wf_unknown_untrimmed : (Instr.unknown [0x20, 0x41]).wf ref = false := by decide
theorem test_wf_unknown_hardcheck : (Instr.unknown textHardcheck).wf ref = false := by decide
theorem test_wf_unknown_formatO :
    (Instr.unknown [0x24, 0x6F, 0x75, 0x74, 0x78, 0x78, 0x78, 0x78]).wf ref = false := by decide
theorem test_wf_unknown_formatI : (Instr.unknown [0x24, 0x69, 0x6E, 0x70, 0x75, 0x74]).wf ref = false := by decide
theorem test_wf_unknown_ad : (Instr.unknown [0x24, 0x61, 0x64]).wf ref = false := by decide
theorem test_config_wf : Config.reference.wf = true := by decide
theorem test_config_wf_debounceDelay : Config.wf { ref with debounceDelay := 2 ^ 32 } = false := by decide
theorem test_config_wf_stableTime : Config.wf { ref with stableTime := 2 ^ 32 } = false := by decide
theorem test_config_wf_lineMax : Config.wf { ref with lineMax := some 10 } = false := by decide
theorem test_config_wf_trimSet :
    Config.wf { ref with trimSet := [0x20, 0x24] } = false ∧ Config.wf { ref with trimSet := [0x30] } = false := by decide

/-! ## Decoding: words written out from 30_encoding.md -/

theorem test_decode_byteCr : decodeByte 0b00001101#8 = .byteCr := by decide
theorem test_decode_byteLf : decodeByte 0b00001010#8 = .byteLf := by decide
theorem test_decode_byteData : decodeByte 0b01000001#8 = .byteData 0x41 ∧ decodeByte 0x00#8 = .byteData 0x00 := by decide
/-- CD-1, CD-2. -/
theorem test_decode_hardcheck :
    decodeCommand ref [0x23, 0x23, 0x68, 0x61, 0x72, 0x64, 0x63, 0x68, 0x65, 0x63, 0x6B] = .hardcheck ∧
    decodeCommand ref [0x23, 0x23, 0x68, 0x61, 0x72, 0x64, 0x63, 0x68, 0x65, 0x63, 0x6B, 0x21] =
      .unknown [0x23, 0x23, 0x68, 0x61, 0x72, 0x64, 0x63, 0x68, 0x65, 0x63, 0x6B, 0x21] := by decide
/-- CD-3, CD-15. -/
theorem test_decode_outOn :
    decodeCommand ref [0x24, 0x6F, 0x75, 0x74, 0x30, 0x33, 0x6F, 0x6E] = .outOn 3 ∧
    decodeCommand ref [0x24, 0x6F, 0x75, 0x74, 0x30, 0x33, 0x20, 0x70, 0x6C, 0x65, 0x61, 0x73, 0x65, 0x20,
      0x6F, 0x6E] = .outOn 3 := by decide
/-- CD-7, CD-16. -/
theorem test_decode_outOff :
    decodeCommand ref [0x24, 0x6F, 0x75, 0x74, 0x31, 0x31, 0x6F, 0x66, 0x66] = .outOff 11 ∧
    decodeCommand ref [0x24, 0x6F, 0x75, 0x74, 0x31, 0x6F, 0x6E, 0x21] = .outOff 1 := by decide
/-- CD-9, CD-17. -/
theorem test_decode_outRange :
    decodeCommand ref [0x24, 0x6F, 0x75, 0x74, 0x31, 0x32, 0x6F, 0x6E] = .outRange 12 ∧
    decodeCommand ref [0x24, 0x6F, 0x75, 0x74, 0x20, 0x33, 0x6F, 0x6E] = .outRange 0 := by decide
/-- CD-20, CD-26. -/
theorem test_decode_inRead :
    decodeCommand ref [0x24, 0x69, 0x6E, 0x30, 0x38] = .inRead 8 ∧
    decodeCommand ref [0x24, 0x69, 0x6E, 0x30, 0x33, 0x31, 0x32] = .inRead 3 := by decide
/-- CD-21, CD-27. -/
theorem test_decode_inRange :
    decodeCommand ref [0x24, 0x69, 0x6E, 0x30, 0x39] = .inRange 9 ∧
    decodeCommand ref [0x24, 0x69, 0x6E, 0x70, 0x75, 0x74] = .inRange 0 := by decide
/-- CD-28, CD-30. -/
theorem test_decode_ad :
    decodeCommand ref [0x24, 0x61, 0x64] = .ad ∧
    decodeCommand ref [0x24, 0x41, 0x44] = .unknown [0x24, 0x41, 0x44] := by decide
/-- CD-11, CD-31. -/
theorem test_decode_unknown :
    decodeCommand ref [0x24, 0x6F, 0x75, 0x74, 0x33, 0x6F, 0x6E] =
      .unknown [0x24, 0x6F, 0x75, 0x74, 0x33, 0x6F, 0x6E] ∧
    decodeCommand ref [] = .unknown [] := by decide
/-- The encodings `0----`, `111--`, `110--`, `10-10` and the rest of the P rows. -/
theorem test_decode_dbFirst : ∀ x : BitVec 4, decodePoll (0#1 ++ x) = .dbFirst := by decide
theorem test_decode_dbAccept : ∀ x : BitVec 2, decodePoll (0b111#3 ++ x) = .dbAccept := by decide
theorem test_decode_dbReject : ∀ x : BitVec 2, decodePoll (0b110#3 ++ x) = .dbReject := by decide
theorem test_decode_dbFire : ∀ x : BitVec 1, decodePoll (0b10#2 ++ x ++ 0b10#2) = .dbFire := by decide
theorem test_decode_dbHold :
    (∀ x y : BitVec 1, decodePoll (0b10#2 ++ x ++ 0#1 ++ y) = .dbHold) ∧
    (∀ x : BitVec 1, decodePoll (0b10#2 ++ x ++ 0b11#2) = .dbHold) := by decide

/-- The table of section 2.2, with the two columns in which the other reading differs. -/
theorem test_dec2 :
    dec2 ref 0x30 0x33 = 3 ∧ dec2 ref 0x39 0x39 = 99 ∧ dec2 ref 0x33 0x78 = 3 ∧
    dec2 ref 0x78 0x33 = 0 ∧ dec2 ref 0x20 0x33 = 0 ∧ dec2 ref 0x2B 0x33 = 0 ∧
    dec2 ref 0x2D 0x31 = 0 ∧ dec2 atol 0x20 0x33 = 3 ∧ dec2 atol 0x2B 0x33 = 3 ∧
    dec2 atol 0x2D 0x31 = 0 := by decide

/-- Table words: the whole text of HARDCHECK and AD; the rows of formats O and I have no bits for their operands. -/
theorem test_decodeTableWord :
    decodeTableWord 8 0x0D = some .byteCr ∧ decodeTableWord 8 0x0A = some .byteLf ∧
    decodeTableWord 88 0x232368617264636865636B = some .hardcheck ∧ decodeTableWord 24 0x246164 = some .ad ∧
    decodeTableWord 32 0x246F7574 = some (.outRange 0) ∧ decodeTableWord 24 0x24696E = some (.inRange 0) ∧
    decodeTableWord 64 0x246F757430336F6E = some (.outOn 3) ∧ decodeTableWord 40 0x24696E3035 = some (.inRead 5) ∧
    decodeTableWord 8 0x1C = some .dbAccept ∧ decodeTableWord 8 0x18 = some .dbReject ∧
    decodeTableWord 8 0x12 = some .dbFire ∧ decodeTableWord 8 0x00 = some .dbFirst ∧
    decodeTableWord 8 0x10 = some .dbHold := by decide

/-- A word placed after reset is what the next step fetches. -/
theorem test_withFetchWord :
    (State.reset.withFetchWord 8 0x0D).fetchedInstr = [.byteCr] ∧
    (State.reset.withFetchWord 8 0x41).fetchedInstr = [.byteData 0x41] ∧
    (State.reset.withFetchWord 24 0x246164).fetchedInstr = [.ad] ∧
    (State.reset.withFetchWord 64 0x246F757430336F6E).fetchedInstr = [.outOn 3] ∧
    (State.reset.withFetchWord 8 0x00).fetchedInstr = [.dbFirst] ∧
    (State.reset.withFetchWord 8 0x1F).fetchedInstr = [.dbAccept] ∧
    (State.reset.withFetchWord 8 0x18).fetchedInstr = [.dbReject] ∧
    (State.reset.withFetchWord 8 0x16).fetchedInstr = [.dbFire] ∧
    (State.reset.withFetchWord 8 0x17).fetchedInstr = [.dbHold] := by decide

/-! ## One step of each instruction -/

/-- LA-3's CR form: the buffer `$ad` is emitted and emptied. -/
theorem test_byteCr : nxt (exec .byteCr (withLine [0x24, 0x61, 0x64])) fun t =>
    decide (t.lb = [] ∧ t.cmd = some [0x24, 0x61, 0x64]) := by decide
/-- LA-7: a line of one space is the empty Command. -/
theorem test_byteCr_space : nxt (exec .byteCr (withLine [0x20])) fun t => decide (t.lb = [] ∧ t.cmd = some []) := by
  decide
/-- LA-6: two spaces and HT are trimmed. -/
theorem test_byteLf : nxt (exec .byteLf (withLine [0x20, 0x20, 0x24, 0x61, 0x64, 0x09])) fun t =>
    decide (t.lb = [] ∧ t.cmd = some [0x24, 0x61, 0x64]) := by decide
/-- LA-12: an over-long line is discarded. -/
theorem test_byteLf_overflow : nxt (exec .byteLf { withLine (List.replicate 64 0x41) with lbOvf := true }) fun t =>
    decide (t.lb = [] ∧ t.lbOvf = false ∧ t.cmd = none ∧ t.log = [(.lineOverflow, 0)]) := by decide
/-- LA-10, LA-11: the 64th byte fits, the 65th is dropped. -/
theorem test_byteData : nxt (exec (.byteData 0x41) (withLine (List.replicate 63 0x41))) fun t =>
    decide (t.lb = List.replicate 64 0x41 ∧ t.lbOvf = false) := by decide
theorem test_byteData_overflow : nxt (exec (.byteData 0x41) (withLine (List.replicate 64 0x41))) fun t =>
    decide (t.lb = List.replicate 64 0x41 ∧ t.lbOvf = true) := by decide
/-- CD-1. -/
theorem test_hardcheck : nxt (exec .hardcheck base) fun t => decide (t.tx = [] ∧ t.log = [(.hardcheckRx, 0)]) := by decide
/-- RL-1. -/
theorem test_outOn : nxt (exec (.outOn 1) base) fun t => decide (t.outA = 0xFE ∧ t.outB &&& 7 = 7 ∧ t.tx = []) := by decide
/-- CD-6: relay 9 is bank B bit 0. -/
theorem test_outOn_bankB : nxt (exec (.outOn 9) base) fun t =>
    decide (t.outA = 0xFF ∧ t.outB &&& 7 = 6 ∧ t.trace = [.gpioWrite .outB 0 .low]) := by decide
/-- RL-4. -/
theorem test_outOff : nxt (exec (.outOff 3) { base with outA := 0xFB }) fun t => decide (t.outA = 0xFF) := by decide
/-- RL-5: only B bit 1 changes. -/
theorem test_outOff_bankB : nxt (exec (.outOff 10) { base with outA := 0, outB := 0 }) fun t =>
    decide (t.outA = 0 ∧ t.outB = 2) := by decide
/-- CD-9. -/
theorem test_outRange : nxt (exec (.outRange 12) base) fun t => decide (t.outA = 0xFF ∧ t.log = [(.outRange, 12)]) := by
  decide
/-- IR-3: LOW is `on` CR; P2: the log argument of input 5 LOW is 0x85. -/
theorem test_inRead_low : nxt (exec (.inRead 5) { base with env := still 0xEF 0xFF 7 0 }) fun t =>
    decide (t.tx = [0x6F, 0x6E, 0x0D] ∧ t.log = [(.inputState, 0x85)]) := by decide
/-- IR-2. -/
theorem test_inRead_high : nxt (exec (.inRead 1) { base with env := still 0x01 0xFF 7 0 }) fun t =>
    decide (t.tx = [0x6F, 0x66, 0x66, 0x0D] ∧ t.log = [(.inputState, 0x01)]) := by decide
/-- CD-21. -/
theorem test_inRange : nxt (exec (.inRange 9) base) fun t => decide (t = base) := by decide
/-- AN-2. -/
theorem test_ad : nxt (exec .ad base) fun t => decide (t.tx = [0x30, 0x30, 0x30, 0x37, 0x0D]) := by decide
/-- AN-7. -/
theorem test_ad_max : nxt (exec .ad { base with env := still 0xFF 0xFF 4095 0 }) fun t =>
    decide (t.tx = [0x34, 0x30, 0x39, 0x35, 0x0D] ∧ t.log = []) := by decide
/-- CD-31, P4 line 6. -/
theorem test_unknown : nxt (exec (.unknown [0x24, 0x4F, 0x55, 0x54, 0x30, 0x33, 0x6F, 0x6E]) base) fun t =>
    decide (t.tx = [] ∧ t.log = [(.unknownCmd, 8)]) := by decide
/-- DB-7: the first poll. -/
theorem test_dbFirst : nxt (poll (withSample base .low 10)) fun t =>
    decide (dbRegs t = (true, .low, 10, 10, false)) := by decide
/-- DB-6 b: 101 ms exceed 100. -/
theorem test_dbAccept : nxt (poll (withSample (polled .high) .low 101)) fun t =>
    decide (dbRegs t = (true, .low, 101, 101, false)) := by decide
/-- DB-1: an accepted change clears the flag. -/
theorem test_dbAccept_clears : nxt (poll { withSample (polled .high) .low 5000 with dbConf := true }) fun t =>
    decide (dbRegs t = (true, .low, 5000, 5000, false)) := by decide
/-- DB-6 a: 100 ms do not exceed 100. -/
theorem test_dbReject : nxt (poll (withSample (polled .high) .low 100)) fun t =>
    decide (dbRegs t = (true, .low, 0, 0, false)) := by decide
/-- DB-1: 1001 ms exceed 1000; the lone CR is written. -/
theorem test_dbFire : nxt (poll (withSample (polled .high) .high 1001)) fun t =>
    decide (dbRegs t = (true, .high, 0, 0, true) ∧ t.tx = [0x0D] ∧ t.seq = .escWait ∧ t.escT0 = 1001) := by decide
/-- DB-5: the counter wraps in the stretch. -/
theorem test_dbFire_wrap :
    nxt (poll { withSample (polled .low) .low 0x000002E9 with dbTchg := 0xFFFFFF00, dbTstart := 0xFFFFFF00 }) fun t =>
      decide (dbRegs t = (true, .low, 0xFFFFFF00, 0xFFFFFF00, true)) := by decide
/-- DB-1: 1000 ms do not exceed 1000. -/
theorem test_dbHold : nxt (poll (withSample (polled .high) .high 1000)) fun t =>
    decide (dbRegs t = (true, .high, 0, 0, false) ∧ t.tx = []) := by decide
/-- DB-1, now 1060: a confirmed hold. -/
theorem test_dbHold_confirmed : nxt (poll { withSample (polled .high) .high 1060 with dbConf := true }) fun t =>
    decide (dbRegs t = (true, .high, 0, 0, true) ∧ t.tx = []) := by decide

/-! ## Data that meet the hypotheses of the statements -/

theorem test_meets_DecodeOfEncodeIsIdentity :
    (Instr.byteData 0x00).wf ref ∧ (Instr.outOn 1).wf ref ∧ (Instr.outOn 11).wf ref ∧ (Instr.outOff 1).wf ref ∧ (Instr.outOff 11).wf ref ∧
    (Instr.outRange 0).wf ref ∧ (Instr.outRange 12).wf ref ∧ (Instr.outRange 99).wf ref ∧ (Instr.inRead 1).wf ref ∧
    (Instr.inRead 8).wf ref ∧ (Instr.inRange 0).wf ref ∧ (Instr.inRange 9).wf ref ∧ (Instr.inRange 99).wf ref ∧
    (Instr.unknown []).wf ref := by decide

theorem test_meets_ProperCodeDecodesWellFormed :
    (Code.command []).proper ref ∧ (Code.command [0x24, 0x61, 0x20, 0x64]).proper ref ∧ (Code.byte 0x0D).proper ref := by decide

theorem test_meets_ByteClassesDecode : (0x0C#8 ≠ 0x0D#8 ∧ 0x0C#8 ≠ 0x0A#8) ∧ (0x0B#8 ≠ 0x0D#8 ∧ 0x0B#8 ≠ 0x0A#8) := by
  decide

/-- The clauses at the ends of the digits: `09`, `/:`, `9:`, `:0`, and HT, plus and minus before a digit (U2). -/
theorem test_meets_NumberFieldValue :
    (isDigit 0x30 ∧ isDigit 0x39 ∧ dec2 atol 0x30 0x39 = 9) ∧
    (isDigit 0x2F = false ∧ isDigit 0x3A = false ∧ dec2 atol 0x2F 0x3A = 0) ∧
    (isDigit 0x39 ∧ isDigit 0x3A = false ∧ dec2 ref 0x39 0x3A = 9) ∧
    (ref.numParse = .strictPrefix ∧ isDigit 0x3A = false ∧ dec2 ref 0x3A 0x30 = 0) ∧
    (atol.numParse = .cAtol ∧ isDigit 0x09 = false ∧ isDigit 0x30 ∧ dec2 atol 0x09 0x30 = 0) ∧
    (isDigit 0x2B = false ∧ dec2 atol 0x2B 0x39 = 9) ∧ (isDigit 0x2D = false ∧ dec2 atol 0x2D 0x39 = 0) := by decide

/-- LA-6: both runs, a first and a last byte that stay. -/
theorem test_meets_TrimKeepsExactlyTheMiddle :
    [0x20#8, 0x20#8, 0x24#8, 0x61#8, 0x64#8, 0x09#8] = [0x20#8, 0x20#8] ++ [0x24#8, 0x61#8, 0x64#8] ++ [0x09#8] ∧
    trim ref.trimSet [0x20, 0x20, 0x24, 0x61, 0x64, 0x09] = [0x24, 0x61, 0x64] := by decide

/-- Numbers 0, 1, 11 and 12, with and without the suffix. -/
theorem test_meets_OutTextsDecode :
    2 ≤ [0x6F#8, 0x6E#8].length ∧ [0x6F#8, 0x6E#8] = [] ++ [0x6F#8, 0x6E#8] ∧ endsWith [0x6F, 0x66, 0x66] textOn = false ∧
    dec2 ref 0x30 0x30 = 0 ∧ dec2 ref 0x30 0x31 = 1 ∧ dec2 ref 0x31 0x31 = 11 ∧
    dec2 ref 0x31 0x32 = 12 := by decide

theorem test_meets_InTextsDecode :
    dec2 ref 0x30 0x31 = 1 ∧ dec2 ref 0x30 0x38 = 8 ∧ dec2 ref 0x30 0x30 = 0 ∧
    dec2 ref 0x30 0x39 = 9 := by decide

/-- AN-1, AN-6 and the largest number of four digits. -/
theorem test_meets_FourDigitsAreTheNumber :
    (0 ≤ 9999 ∧ fmt4 0 = [0x30, 0x30, 0x30, 0x30]) ∧ (2048 ≤ 9999 ∧ fmt4 2048 = [0x32, 0x30, 0x34, 0x38]) ∧
    (9999 ≤ 9999 ∧ fmt4 9999 = [0x39, 0x39, 0x39, 0x39]) := by decide

/-- The ends of each range of the relay map (RL-2, RL-6). -/
theorem test_meets_RelayMapIsTheBijection :
    relayMap 1 = some (.outA, 0) ∧ relayMap 8 = some (.outA, 7) ∧ relayMap 9 = some (.outB, 0) ∧
    relayMap 11 = some (.outB, 2) ∧ relayMap 0 = none ∧ relayMap 12 = none := by decide

def oneByte : State := { base with env := { base.env with rx := [0x24, 0x0D] } }

theorem test_meets_StepRunsTheOldestByte :
    oneByte.hung = false ∧ oneByte.seq = .drain ∧ oneByte.cmd = none ∧ (oneByte.env.tick 32).rx = 0x24 :: [0x0D] := by decide

theorem test_meets_StepRunsTheCommandInTransit :
    { oneByte with cmd := some textAd }.hung = false ∧ { oneByte with cmd := some textAd }.seq = .drain ∧ { oneByte with cmd := some textAd }.cmd = some textAd := by decide

theorem test_meets_StepRunsThePolledCase :
    (polled .low).hung = false ∧ (polled .low).seq = .debounce ∧ (polled .low).env.capOk = true := by decide

theorem test_meets_DrainEndsWhenNothingIsAvailable :
    base.hung = false ∧ base.seq = .drain ∧ base.cmd = none ∧ (base.env.tick 32).rx = [] := by decide

/-- Both sides of the bound: 50 and 49 ms after ESC_T0. -/
def waiting (t0 : Timestamp) : State := { base with seq := .escWait, dbInit := true, dbConf := true, escT0 := t0 }

theorem test_meets_EscWaitOnlyLooksAtTheClock :
    (waiting 951).hung = false ∧ (waiting 951).seq = .escWait ∧ nxt (step (waiting 951)) (fun t => decide (t.seq = .escSend)) ∧
    (waiting 952).seq = .escWait ∧ nxt (step (waiting 952)) (fun t => decide (t.seq = .escWait)) := by decide

theorem test_meets_EscSendTransmitsHardcheck :
    { waiting 951 with seq := .escSend }.hung = false ∧ { waiting 951 with seq := .escSend }.seq = .escSend ∧ { waiting 951 with seq := .escSend }.env.capOk = true := by decide

theorem test_meets_TerminatorEndsTheLine :
    ((withLine [0x20]).lbOvf = false ∧ (withLine [0x20]).lb ≠ []) ∧ (base.lbOvf = false ∧ base.lb = []) ∧
    { base with lbOvf := true }.lbOvf = true := by decide

/-- One byte below the bound, no bound, and at the bound. -/
theorem test_meets_DataByteIsAppendedOrDropped :
    (∀ m, (withLine (List.replicate 63 0x41)).cfg.lineMax = some m →
      (withLine (List.replicate 63 0x41)).lb.length < m) ∧
    { base with cfg := { base.cfg with lineMax := none } }.cfg.lineMax = none ∧
    (withLine (List.replicate 64 0x41)).cfg.lineMax = some (withLine (List.replicate 64 0x41)).lb.length := by
  refine ⟨fun m h => ?_, by decide, by decide⟩
  have h : 64 = m := by simpa [withLine, base, State.reset, State.resetWith, Config.reference] using h
  subst h
  decide

/-- The ids at the ends of both banks, for OUT_ON and OUT_OFF. -/
theorem test_meets_OutOnWritesLowToItsRelay : base.env.capOk = true ∧
    ∀ id ∈ [1, 8, 9, 11], 1 ≤ id ∧ id ≤ 11 ∧ nxt (exec (.outOn id) base) (fun _ => true) := by decide

theorem test_meets_OutOffWritesHighToItsRelay : base.env.capOk = true ∧
    ∀ id ∈ [1, 8, 9, 11], 1 ≤ id ∧ id ≤ 11 ∧ nxt (exec (.outOff id) base) (fun _ => true) := by decide

theorem test_meets_InAnswersTheLevel : base.env.capOk = true ∧
    ∀ id ∈ [1, 8], 1 ≤ id ∧ id ≤ 8 ∧ nxt (exec (.inRead id) base) (fun _ => true) := by decide

theorem test_meets_AdTransmitsTheRawCount : base.env.capOk = true := by decide

theorem test_meets_NumbersOutsideTheMapsAreRefused :
    (∀ id ∈ [0, 12], isRefused (exec (.outOn id) base) .relayIdUndefined ∧
      isRefused (exec (.outOff id) base) .relayIdUndefined) ∧
    (∀ id ∈ [0, 9], isRefused (exec (.inRead id) base) .inputIdUndefined) := by decide

/-- The five cases at the ends of their ranges: 101 and 100 ms, 1001 and 1000 ms, and a set flag. -/
theorem test_meets_FirstPollRecordsTheBaseline : base.dbInit = false := by decide

theorem test_meets_AcceptedChangeRestartsTheStretch :
    let s := withSample (polled .high) .low 101
    s.dbInit = true ∧ s.pollLevel ≠ s.dbLevel ∧ elapsed s.cfg.timeBits s.pollNow s.dbTchg > s.cfg.debounceDelay := by decide

theorem test_meets_RejectedChangeOnlyRecordsTheLevel :
    let s := withSample (polled .high) .low 100
    s.dbInit = true ∧ s.pollLevel ≠ s.dbLevel ∧ elapsed s.cfg.timeBits s.pollNow s.dbTchg ≤ s.cfg.debounceDelay := by decide

theorem test_meets_FiringStepSetsTheFlagAndSendsCR :
    let s := withSample (polled .high) .high 1001
    s.dbInit = true ∧ s.pollLevel = s.dbLevel ∧ elapsed s.cfg.timeBits s.pollNow s.dbTstart > s.cfg.stableTime ∧
      s.dbConf = false ∧ s.env.capOk = true := by decide

theorem test_meets_HoldingStepChangesNothing :
    (let s := withSample (polled .high) .high 1000
     s.dbInit = true ∧ s.pollLevel = s.dbLevel ∧ elapsed s.cfg.timeBits s.pollNow s.dbTstart ≤ s.cfg.stableTime) ∧
    (let s : State := { withSample (polled .high) .high 1001 with dbConf := true }
     s.dbInit = true ∧ s.pollLevel = s.dbLevel ∧ s.dbConf = true) := by decide

/-- Each clause, at the ends of its range: the first call hangs, or the last byte of a text does. -/
theorem test_meets_CallThatNeverReturnsStopsTheBlock :
    (let s : State := { base with hung := true }
     s.hung = true ∧ isHang (step s)) ∧
    (let s := fated .drain [.hangs]
     s.env.capOk = false ∧ s.env.fates = .hangs :: [] ∧
     (∀ id ∈ [1, 11], nxt (exec (.outOn id) s) fun t => t.hung && isHang (step t)) ∧
     (∀ id ∈ [1, 8], nxt (exec (.inRead id) s) fun t => t.hung && isHang (step t))) ∧
    (fated .drain [.done, .hangs]).env.fates = List.replicate (0 + 1) .done ++ .hangs :: [] ∧
    (fated .drain [.done, .done, .done, .done, .done, .hangs]).env.fates =
      List.replicate (4 + 1) .done ++ .hangs :: [] ∧
    (fated .debounce [.hangs]).hung = false ∧ (fated .debounce [.hangs]).seq = .debounce ∧
    (let s := fated .escSend [.hangs]
     s.hung = false ∧ s.seq = .escSend ∧ s.env.fates = List.replicate 0 .done ++ .hangs :: []) ∧
    (let s := fated .escSend (List.replicate 11 .done ++ [.hangs])
     s.env.fates = List.replicate 11 .done ++ .hangs :: [] ∧
     nxt (step s) fun t => decide (t.hung = true ∧ t.tx = textHardcheck)) := by decide

/-- The relays and inputs at the ends of their maps, both levels, and a failed conversion. -/
theorem test_meets_FailedCallsAreNotNoticed :
    (let s := fated .drain [.failed 0]
     s.env.capOk = false ∧ s.env.fates = .failed 0 :: [] ∧
     nxt (exec (.outOn 1) s) (fun t => decide (t.outA = 0xFE ∧ t.env.latchA = 0xFF ∧ t.hung = false)) ∧
     nxt (exec (.outOff 11) s) (fun _ => true)) ∧
    (let s := fated .drain [.failed 0, .done, .done, .done, .done]
     s.env.fates = .failed 0 :: (List.replicate 4 .done ++ []) ∧
     nxt (exec (.inRead 8) s) fun t => decide (t.tx = [0x6F, 0x6E, 0x0D])) ∧
    (let s := fated .drain [.failed 4095, .done, .done, .done, .done, .done]
     s.env.fates = .failed 4095 :: (List.replicate 5 .done ++ []) ∧
     nxt (exec .ad s) fun t => decide (t.tx = [0x34, 0x30, 0x39, 0x35, 0x0D])) := by decide

theorem test_meets_EveryStepGoesOn :
    base.hung = false ∧ base.env.capOk = true ∧ (fated .debounce [.hangs]).hung = false := by decide

theorem test_meets_ErrorConditionsAreSilent :
    errorCondition (.outRange 12) base = some .outRange ∧ errorCondition (.inRange 9) base = some .inRange ∧
    errorCondition (.unknown []) base = some .unknown ∧
    errorCondition .byteCr { base with lbOvf := true } = some .lineOvf := by decide

/-- base meets the invariant. -/
theorem base_inv : base.Inv where
  line := ⟨fun b hb => (List.not_mem_nil hb).elim, fun _ _ => Nat.zero_le _, fun h => (Bool.false_ne_true h).elim⟩
  debounce := ⟨fun h => (Bool.false_ne_true h).elim, fun h => (Bool.false_ne_true h).elim⟩
  sequencer := ⟨fun h => (h rfl).elim, by simp [base, State.reset, State.resetWith], by decide⟩
  output := ⟨fun _ id k i h => by
    rcases relayMap_eq_some h with ⟨-, -, rfl, -⟩ | ⟨-, h11, rfl, hi⟩
    · rfl
    · have low : ∀ j : BitIx, j.val ≤ 2 → base.env.latchLevel .outB j = base.outLevel .outB j := by decide
      exact low i (by omega)⟩
  time := ⟨by decide, by decide, by decide, by decide, fun _ h => by cases h⟩

theorem test_meets_EveryStepKeepsTheInvariant : base.Inv ∧ nxt (step base) (fun _ => true) = true :=
  ⟨base_inv, by decide⟩

theorem test_meets_ResetForgetsRegistersAndKeepsTheOutside :
    base.cfg = (withLine [0x41]).cfg ∧ base.env = (withLine [0x41]).env ∧ base.trace = (withLine [0x41]).trace := by decide

theorem test_meets_ParametersNeverChange : nxt (step base) (fun t => decide (t.cfg = base.cfg)) := by decide

/-- A confirmed hold at LOW that is released 1001 ms after its start (as DB-1, now 5000). -/
def released : State := { polled .low with dbConf := true }

theorem test_meets_OnlyAnAcceptedChangeClearsTheFlag :
    released.dbConf = true ∧ nxt (step released) (fun t => decide (t.dbConf = false)) := by decide

/-- Two holds with a release between them, the clock scripted: the calls of the nine steps. -/
def twoHolds : State :=
  let at' (dt : Nat) (button : BitVec 8) : EnvMove := ⟨dt, [], 0xFF, button, 0⟩
  { polled .high with
    env := { base.env with script :=
      [at' 0 0xFF, at' 0 0xFF, at' 0 0xFF, at' 50 0xFF, at' 0 0xFF,
        at' 0 0x7F, at' 900 0x7F, at' 0 0x7F, at' 1001 0x7F, at' 0 0x7F] } }

theorem test_meets_NoSecondEscalationWithoutAcceptedChange :
    instrsRun 7 twoHolds = [] ++ [.dbFire] ++ [.dbAccept] ++ [.dbFire] ++ [] := by decide

theorem test_meets_DebounceStatesFollowTheDiagram :
    (polled .high).hung = false ∧ (polled .high).seq = .debounce ∧ (polled .high).DebounceInv ∧ sampled (polled .high) ∧
    nxt (step { base with seq := .debounce }) (fun t => decide (t.dbView = .pending)) = true ∧
    nxt (step (polled .high)) (fun t => decide (t.dbView = .confirmed)) = true ∧
    nxt (step { polled .high with dbTchg := 1, dbTstart := 1 }) (fun t => decide (t.dbView = .pending)) = true ∧
    nxt (step released) (fun t => decide (t.dbView = .pending)) = true ∧
    nxt (step { released with dbTchg := 901, dbTstart := 901 }) (fun t => decide (t.dbView = .confirmed)) = true :=
  ⟨by decide, by decide, ⟨fun _ => rfl, fun _ => rfl⟩, by decide, by decide, by decide, by decide, by decide, by decide⟩

theorem test_meets_CommandPathIgnoresDebounceRegisters :
    oneByte.seq = .drain ∧ nxt (step oneByte) (fun t => decide (t.lb = [0x24])) := by decide

theorem test_meets_DebouncePathIgnoresLineAndOutputs :
    (polled .high).seq ≠ .drain ∧ nxt (step (polled .high)) (fun t => decide (t.tx = [0x0D])) := by decide

theorem test_meets_RelayChangesOnlyByItsCommand :
    nxt (step { base with cmd := some [0x24, 0x6F, 0x75, 0x74, 0x30, 0x33, 0x6F, 0x6E] })
      (fun t => decide (t.outLevel .outA 2 ≠ base.outLevel .outA 2)) = true := by decide

theorem test_meets_UpperOutBBitsNeverChange :
    nxt (Host.Core.run Sys2Proof.core 1 base) (fun _ => true) = true ∧ 3 ≤ (3 : BitIx).val := by decide

/-- RL-3. -/
theorem test_meets_RepeatingARelayCommandChangesNothing :
    base.env.capOk = true ∧ nxt (exec (.outOn 3) base) (fun t => nxt (exec (.outOn 3) t) (fun u => decide (u.outA = 0xFB))) = true := by decide

theorem test_meets_OnlyMappedPinsAreTouched :
    nxt (step (polled .high)) (fun t => decide (.gpioRead .inB 7 .high ∈ t.trace)) = true ∧
    nxt (step { base with cmd := some [0x24, 0x6F, 0x75, 0x74, 0x31, 0x31, 0x6F, 0x6E] })
      (fun t => decide (.gpioWrite .outB 2 .low ∈ t.trace)) = true := by decide

theorem test_meets_TheStreamsAreOnlyWritten : nxt (step base) (fun _ => true) = true := by decide

/-- From just before the wrap to just after it. -/
theorem test_meets_ElapsedIsTrueTimeBelowTheWrap :
    (still 0 0 0 0xFFFFFF00).time ≤ (still 0 0 0 0x1000002E9).time ∧
    (still 0 0 0 0x1000002E9).time - (still 0 0 0 0xFFFFFF00).time < 2 ^ 32 ∧
    elapsed 32 ((still 0 0 0 0x1000002E9).counter 32) ((still 0 0 0 0xFFFFFF00).counter 32) = 1001 ∧
    (5 < 2 ^ 3 ∧ 6 < 2 ^ 3 ∧ elapsed 3 5 6 = 7 ∧ elapsed 3 6 6 = 0) := by decide

/-- A second poll that the environment would let come 2^32 ms after the first: it comes 1 ms sooner (R266). -/
def latePoll : State :=
  { polled .high with
    env := { base.env with lastPoll := some 1001, script := [⟨0, [], 0xFF, 0xFF, 0⟩, ⟨2 ^ 32, [], 0xFF, 0xFF, 0⟩] } }

theorem test_meets_PollsAreLessThanAWrapApart :
    latePoll.TimeInv ∧ latePoll.hung = false ∧ latePoll.seq = .debounce ∧ latePoll.env.lastPoll = some 1001 ∧
    sampled latePoll = true ∧ nxt (step latePoll) (fun t => decide (t.env.lastPoll = some (1001 + 2 ^ 32 - 1))) = true :=
  ⟨⟨by decide, by decide, by decide, by decide, fun p h => by
      obtain rfl : 1001 = p := by simpa [latePoll] using h
      decide⟩, by decide, by decide, by decide, by decide, by decide⟩

/-- A run of three steps from the escalating poll to the next one, and that one. -/
def stalled : State :=
  { polled .high with
    env := { base.env with script := [⟨0, [], 0xFF, 0xFF, 0⟩, ⟨0, [], 0xFF, 0xFF, 0⟩, ⟨0, [], 0xFF, 0xFF, 0⟩,
      ⟨50, [], 0xFF, 0xFF, 0⟩] } }

/-- The state after k steps has a property. -/
def after (k : Nat) (s : State) (p : State → Bool) : Bool := nxt (Host.Core.run Sys2Proof.core k s) p

theorem test_meets_NextPollComesAfterTheStall :
    stalled.seq = .debounce ∧ nxt (step stalled) (fun t => decide (t.seq = .escWait ∧ t.pollNow = 1001)) ∧
    (∀ m ∈ [1, 2, 3], after m stalled fun x => decide (x.seq ≠ .debounce)) ∧
    after 4 stalled (fun u => decide (u.seq = .debounce) && sampled u) ∧
    after 5 stalled (fun w => decide (w.pollNow = 1051)) := by decide

/-- The line `$ad` and CR at the head of the stream, and (LA-10) a line of exactly LINE_MAX bytes. -/
theorem test_meets_AWholeLineBecomesOneCommand :
    (let s : State := { base with env := { base.env with rx := textAd ++ [0x0D] ++ [0x0A] } }
     s.hung = false ∧ s.seq = .drain ∧ s.cmd = none ∧ s.lb = [] ∧ s.lbOvf = false ∧ s.env.rx = textAd ++ [0x0D] ++ [0x0A]) ∧
    textAd ≠ [] ∧ (∀ b ∈ textAd, b ≠ 0x0D#8 ∧ b ≠ 0x0A#8) ∧ base.cfg.lineMax = some 64 ∧ textAd.length ≤ 64 ∧
    (List.replicate 64 0x41#8).length ≤ 64 ∧ (∀ b ∈ List.replicate 64 0x41#8, b ≠ 0x0D#8 ∧ b ≠ 0x0A#8) := by decide

theorem test_meets_SelectedCaseIsDbStep :
    (Pseudocode.dbStep .low 10 base).2 = false ∧
    (Pseudocode.dbStep .high 1001 (polled .high)).2 = true := by decide

/-- A cycle that drains two bytes and polls, and a cycle that escalates. -/
theorem test_meets_StepsRefineThePollCycle :
    oneByte.hung = false ∧ oneByte.seq = .drain ∧ oneByte.cmd = none ∧ (Pseudocode.pollCycle 3 oneByte).isSome = true ∧
    (let s : State := { polled .high with
       seq := .drain
       env := { base.env with script := [⟨0, [], 0, 0xFF, 0⟩, ⟨0, [], 0, 0xFF, 0⟩, ⟨0, [], 0, 0xFF, 0⟩,
         ⟨0, [], 0, 0xFF, 0⟩, ⟨50, [], 0, 0xFF, 0⟩] } }
     s.hung = false ∧ s.seq = .drain ∧ s.cmd = none ∧ ((Pseudocode.pollCycle 2 s).map State.tx) = some (charCR :: escalationText)) := by
  decide

end Sys2Proof.Tests
end

