-- ==== Sys2Proof/Proofs/Elapsed.lean ====
section
/-! The modular difference of two timestamps (00_scope.md R16): it sees its arguments only modulo 2^TIME_BITS, and over a
true time below the wrap period it is the plain difference. -/

namespace Sys2Proof.Machine

@[simp] theorem elapsed_mod_two_pow (w : Nat) (a b : Timestamp) :
    elapsed w (a % 2 ^ w) (b % 2 ^ w) = elapsed w a b := by
  simp only [elapsed, Int.natCast_mod, ← Int.sub_emod]

@[simp] theorem elapsed_add_two_pow (w : Nat) (a b : Timestamp) : elapsed w (a + 2 ^ w) b = elapsed w a b := by
  rw [← elapsed_mod_two_pow, Nat.add_mod_right, elapsed_mod_two_pow]

@[simp] theorem elapsed_counter (w : Nat) (e e' : Env) :
    elapsed w (e'.counter w) (e.counter w) = elapsed w e'.time e.time :=
  elapsed_mod_two_pow w e'.time e.time

theorem elapsed_eq_sub {w a b : Nat} (hle : b ≤ a) (hlt : a - b < 2 ^ w) : elapsed w a b = a - b := by
  rw [elapsed, ← Int.natCast_sub hle, ← Int.natCast_mod, Nat.mod_eq_of_lt hlt, Int.toNat_natCast]

/-- The counter wrapped between the two readings, so the later one stands for a value one wrap period higher. -/
theorem elapsed_eq_add_two_pow_sub {w a b : Nat} (hlt : a < b) (hb : b < 2 ^ w) :
    elapsed w a b = a + 2 ^ w - b := by
  rw [← elapsed_add_two_pow]
  exact elapsed_eq_sub (by omega) (by omega)

end Sys2Proof.Machine

open Sys2Proof Sys2Proof.Machine

/-- Settles O54: both clauses come down to `elapsed_eq_sub`, the wrapped one by moving the later reading up by one wrap
period, and the counter's by putting the true times for its readings. -/
theorem elapsedIsTrueTimeBelowTheWrap : Obligations.ElapsedIsTrueTimeBelowTheWrap := by
  intro w
  refine ⟨fun a b ha hb => ?differenceOfReadings, fun e e' hle hlt => ?trueTime⟩
  case differenceOfReadings =>
    split
    case isTrue hle => exact elapsed_eq_sub hle ((Nat.sub_le a b).trans_lt ha)
    case isFalse hnle => exact elapsed_eq_add_two_pow_sub (Nat.lt_of_not_ge hnle) hb
  case trueTime =>
    rw [elapsed_counter]
    exact elapsed_eq_sub hle hlt

end

