-- ==== Sys2Proof/Proofs/StateInvariant.lean ====
section
/-! The state over a step and over a reset: what the handlers' calls leave of the environment, what each family of
instructions can answer, what every step keeps from any state, and the invariant (10_state.md R35, R39, R40). -/

namespace Sys2Proof

/-- Trimming again removes nothing: what is left begins and ends outside the set (30_encoding.md R94). -/
@[simp] theorem trim_trim (set : List Byte) (s : Str) : trim set (trim set s) = trim set s := by
  have hpre : trim set s <+: s.dropWhile (inTrimSet set) := List.rdropWhile_prefix _ _
  have hfront : (trim set s).dropWhile (inTrimSet set) = trim set s := by
    rw [List.dropWhile_eq_self_iff]
    intro hl
    rw [hpre.getElem hl]
    exact List.dropWhile_get_zero_not _ _ (hl.trans_le hpre.length_le)
  calc trim set (trim set s)
      = ((trim set s).dropWhile (inTrimSet set)).rdropWhile (inTrimSet set) := rfl
    _ = (trim set s).rdropWhile (inTrimSet set) := by rw [hfront]
    _ = trim set s := List.rdropWhile_idempotent _ _

/-- A line without terminators is trimmed to a proper Command (30_encoding.md R93). -/
theorem properCommand_trim {g : Config} {s : Str} (h : ∀ b ∈ s, b ≠ 0x0D#8 ∧ b ≠ 0x0A#8) :
    properCommand g (trim g.trimSet s) = true :=
  properCommand_iff.mpr ⟨fun b hb => isTerminator_eq_false.mpr (h b (mem_of_mem_trim hb)), trim_trim _ _⟩

end Sys2Proof

namespace Sys2Proof.Machine

/-! ## The environment between two polls -/

/-- `e'` comes after `e` with no latch written and no poll taken: time may have passed within the wrap period
(46_poll_loop.md R266), and bytes, pins and fates may be others. -/
structure Env.Later (w : Nat) (e e' : Env) : Prop where
  capOk : e'.capOk = e.capOk
  latchLevel : ∀ k i, e'.latchLevel k i = e.latchLevel k i
  lastPoll : e'.lastPoll = e.lastPoll
  time_le : e.time ≤ e'.time
  time_lt : ∀ p, e.lastPoll = some p → e.time < p + 2 ^ w → e'.time < p + 2 ^ w

theorem Env.Later.trans {w : Nat} {e e' e'' : Env} (h : e.Later w e') (h' : e'.Later w e'') : e.Later w e'' where
  capOk := h'.capOk.trans h.capOk
  latchLevel k i := (h'.latchLevel k i).trans (h.latchLevel k i)
  lastPoll := h'.lastPoll.trans h.lastPoll
  time_le := h.time_le.trans h'.time_le
  time_lt p hp ht := h'.time_lt p (h.lastPoll.trans hp) (h.time_lt p hp ht)

theorem Env.Called.later {e e' : Env} (h : e.Called e') (w : Nat) : e.Later w e' := by
  obtain ⟨more, fates, n, rfl⟩ := h
  exact ⟨rfl, fun _ _ => rfl, rfl, le_rfl, fun _ _ ht => ht⟩

theorem Env.Later.refl (e : Env) (w : Nat) : e.Later w e := (Env.Called.refl e).later w

theorem Env.later_tick (e : Env) (w : Nat) : e.Later w (e.tick w) where
  capOk := e.tick_capOk w
  latchLevel k i := by cases k <;> simp [Env.latchLevel]
  lastPoll := e.tick_lastPoll w
  time_le := e.time_le_tick w
  time_lt _ hp ht := Env.tick_time_lt hp ht

theorem Env.Later.withRx {w : Nat} {e e' : Env} (h : e.Later w e') (rx : Str) : e.Later w { e' with rx := rx } :=
  { h with }

/-- The environment moves, then answers some calls. -/
theorem State.later_of_tick_called {s : State} {e : Env} (h : s.tick.env.Called e) : s.env.Later s.cfg.timeBits e :=
  (s.env.later_tick s.cfg.timeBits).trans (h.later _)

/-! ## What each family of instructions can answer -/

theorem exec_decodeByte_eq_next {b : Byte} {s t : State} (h : exec (decodeByte b) s = .next t) :
    t = s.feedTerminator ∨ (isTerminator b = false ∧ t = s.feedData b) := by
  rcases decodeByte_cases b with ⟨-, hd⟩ | ⟨-, hd⟩ | ⟨hb, hd⟩ <;> rw [hd] at h
  · exact .inl (Host.Outcome.next.inj h).symm
  · exact .inl (Host.Outcome.next.inj h).symm
  · exact .inr ⟨hb, (Host.Outcome.next.inj h).symm⟩

/-- The state after a handler that writes no register. -/
def State.Answered (s t : State) : Prop :=
  ∃ e new hung, s.env.Later s.cfg.timeBits e ∧ t = { s with env := e, trace := s.trace ++ new, hung := hung }

/-- The state after the write of a relay's bit: the shadow register has the level, and so has the latch unless
`CAP_OK` is off (60_exceptions.md R283). -/
def State.RelayWritten (s t : State) : Prop :=
  ∃ id k i l e, relayMap id = some (k, i) ∧ s.env.Called e ∧
    (t = (({ s with env := e } : State).setLatch k i l).gpioWrite k i l ∨
      (s.env.capOk = false ∧ t = ({ s with env := e } : State).gpioWrite k i l))

theorem State.answered_logEvent (s : State) (c : LogCode) (a : Byte) : s.Answered (s.logEvent c a) :=
  ⟨s.env, [.log c a], s.hung, .refl _ _, rfl⟩

theorem State.setRelay_answered_or_written {s t : State} {id : Nat} {on : Bool} (h : s.setRelay id on = .next t) :
    s.Answered t ∨ s.RelayWritten t := by
  obtain ⟨k, i, e, hm, he, rfl | ⟨hc, rfl⟩ | rfl⟩ := State.setRelay_eq_next h
  · exact .inr ⟨id, k, i, _, e, hm, he, .inl rfl⟩
  · exact .inr ⟨id, k, i, _, e, hm, he, .inr ⟨hc, rfl⟩⟩
  · exact .inl ⟨e, [], true, he.later _, by simp⟩

/-- A command writes a relay's bit or no register at all. -/
theorem exec_decodeCommand_eq_next {g : Config} {c : Str} {s t : State}
    (h : exec (decodeCommand g c) s = .next t) : s.Answered t ∨ s.RelayWritten t := by
  rcases decodeCommand_cases g c with ⟨-, hd⟩ | ⟨n, -, -, hd | hd⟩ | ⟨n, -, hd⟩ | ⟨n, -, -, hd⟩ | ⟨n, -, hd⟩ | ⟨-, hd⟩ |
    ⟨-, -, -, -, hd⟩ <;> rw [hd] at h
  · exact .inl (Host.Outcome.next.inj h ▸ s.answered_logEvent _ _)
  · exact State.setRelay_answered_or_written h
  · exact State.setRelay_answered_or_written h
  · exact .inl (Host.Outcome.next.inj h ▸ s.answered_logEvent _ _)
  · obtain ⟨k, i, e, new, hung, -, he, rfl, -⟩ := State.readInput_eq_next h
    exact .inl ⟨e, new, hung, State.later_of_tick_called he, rfl⟩
  · exact .inl ⟨s.env, [], s.hung, .refl _ _, by simp [← Host.Outcome.next.inj h]⟩
  · obtain ⟨e, new, hung, he, hl, -⟩ := s.sampleAnalog_cases
    exact .inl ⟨e, new, hung, State.later_of_tick_called he, (Host.Outcome.next.inj h).symm.trans hl⟩
  · exact .inl (Host.Outcome.next.inj h ▸ s.answered_logEvent _ _)

/-- A sample taken writes its two registers and marks the poll. -/
theorem State.sample_eq_goes {s u : State} (hu : s.sample = .goes u) :
    ∃ e l, s.env.Later s.cfg.timeBits e ∧ u = { s with
      pollLevel := l, pollNow := e.counter s.cfg.timeBits, env := { e with lastPoll := some e.time },
      trace := s.trace ++ [.gpioRead s.cfg.buttonBank s.cfg.buttonBit l, .nowRead (e.counter s.cfg.timeBits)] } := by
  rcases s.sample_cases with ⟨e, l, he, hp⟩ | ⟨e, -, hp⟩ <;> rw [hp] at hu <;> cases hu
  exact ⟨e.tick s.cfg.timeBits, l, (State.later_of_tick_called he).trans (e.later_tick _), rfl⟩

theorem State.sample_eq_hangs {s u : State} (hu : s.sample = .hangs u) :
    ∃ e, s.env.Later s.cfg.timeBits e ∧ u = { s with env := e } := by
  rcases s.sample_cases with ⟨e, l, -, hp⟩ | ⟨e, he, hp⟩ <;> rw [hp] at hu <;> cases hu
  exact ⟨e, State.later_of_tick_called he, rfl⟩

theorem State.seq_of_sample_eq_goes {s u : State} (hu : s.sample = .goes u) : u.seq = s.seq := by
  obtain ⟨e, l, -, rfl⟩ := State.sample_eq_goes hu
  rfl

/-- `DB_FIRE` is selected only after the first poll (45_debounce_edge.md R235). -/
theorem State.dbInit_of_decodePoll_eq_dbFire {s : State} (h : decodePoll s.ev = .dbFire) : s.dbInit = true := by
  cases hi : s.dbInit with
  | true => rfl
  | false => simp [State.ev, hi, decodePoll] at h

theorem exec_decodePoll_eq_next {s t : State} (h : exec (decodePoll s.ev) s = .next t) :
    t = { s with dbLevel := s.pollLevel, dbTchg := s.pollNow, dbTstart := s.pollNow, dbInit := true, seq := .drain } ∨
    t = { s with dbTchg := s.pollNow, dbTstart := s.pollNow, dbConf := false, dbLevel := s.pollLevel, seq := .drain } ∨
    t = { s with dbLevel := s.pollLevel, seq := .drain } ∨
    (s.dbInit = true ∧ t = ({ s with dbConf := true } : State).escalate.last) ∨
    t = { s with seq := .drain } := by
  rcases decodePoll_cases s.ev with hd | hd | hd | hd | hd
  · exact .inl (Host.Outcome.next.inj (hd ▸ h)).symm
  · exact .inr (.inl (Host.Outcome.next.inj (hd ▸ h)).symm)
  · exact .inr (.inr (.inl (Host.Outcome.next.inj (hd ▸ h)).symm))
  · exact .inr (.inr (.inr (.inl
      ⟨State.dbInit_of_decodePoll_eq_dbFire hd, (Host.Outcome.next.inj (hd ▸ h)).symm⟩)))
  · exact .inr (.inr (.inr (.inr (Host.Outcome.next.inj (hd ▸ h)).symm)))

/-! ## What every step keeps, from any state -/

/-- The parameters (10_state.md R35), `DB_INIT` once it is set (R39, I6), and bits 7 to 3 of `OUT_B` (R30). -/
structure State.Keeps (s t : State) : Prop where
  cfg : t.cfg = s.cfg
  dbInit : s.dbInit = true → t.dbInit = true
  upperOutB : ∀ i : BitIx, 3 ≤ i.val → t.outLevel .outB i = s.outLevel .outB i

theorem State.Keeps.refl (s : State) : s.Keeps s := ⟨rfl, id, fun _ _ => rfl⟩

theorem State.Keeps.trans {s t u : State} (h : s.Keeps t) (h' : t.Keeps u) : s.Keeps u where
  cfg := h'.cfg.trans h.cfg
  dbInit := h'.dbInit ∘ h.dbInit
  upperOutB i hi := (h'.upperOutB i hi).trans (h.upperOutB i hi)

theorem State.Keeps.of_same {s t : State} (hc : t.cfg = s.cfg) (hi : t.dbInit = s.dbInit) (hb : t.outB = s.outB) :
    s.Keeps t :=
  ⟨hc, fun h => hi.trans h, fun i _ => congrArg (bankLevel · i) hb⟩

theorem State.Answered.keeps {s t : State} (h : s.Answered t) : s.Keeps t := by
  obtain ⟨e, new, hung, -, rfl⟩ := h
  exact .of_same rfl rfl rfl

/-- No relay is at a bit above 2 of bank B (20_memory.md R62). -/
theorem relayMap_outB_le_two {id : Nat} {i : BitIx} (h : relayMap id = some (.outB, i)) : i.val ≤ 2 := by
  rcases relayMap_eq_some h with ⟨-, -, hk, -⟩ | ⟨-, h11, -, hi⟩
  · cases hk
  · omega

theorem State.keeps_gpioWrite {s : State} {id : Nat} {k : OutBank} {i : BitIx} (hm : relayMap id = some (k, i))
    (l : Level) : s.Keeps (s.gpioWrite k i l) where
  cfg := s.gpioWrite_cfg k i l
  dbInit h := (s.gpioWrite_dbInit k i l).trans h
  upperOutB j hj := by
    have hne : ¬(OutBank.outB = k ∧ j = i) := by
      rintro ⟨rfl, rfl⟩
      have := relayMap_outB_le_two hm
      omega
    rw [State.outLevel_gpioWrite, if_neg hne]

theorem State.RelayWritten.keeps {s t : State} (h : s.RelayWritten t) : s.Keeps t := by
  obtain ⟨id, k, i, l, e, hm, -, rfl | ⟨-, rfl⟩⟩ := h
  · have hlatch : s.Keeps (({ s with env := e } : State).setLatch k i l) := .of_same rfl rfl rfl
    exact hlatch.trans (State.keeps_gpioWrite hm l)
  · have hcall : s.Keeps { s with env := e } := .of_same rfl rfl rfl
    exact hcall.trans (State.keeps_gpioWrite hm l)

theorem State.keeps_feedTerminator (s : State) : s.Keeps s.feedTerminator := by
  rcases s.feedTerminator_cases with ⟨-, h⟩ | ⟨-, -, h⟩ | ⟨-, -, h⟩ <;> rw [h] <;> exact .of_same rfl rfl rfl

theorem State.keeps_feedData (s : State) (b : Byte) : s.Keeps (s.feedData b) := by
  rcases s.feedData_cases b with ⟨-, h⟩ | ⟨-, h⟩ <;> rw [h] <;> exact .of_same rfl rfl rfl

theorem State.keeps_escalate (s : State) : s.Keeps s.escalate.last := by
  rcases s.escalate_cases with ⟨e, -, h⟩ | ⟨e, -, h⟩ <;> rw [h] <;> exact .of_same rfl rfl rfl

theorem State.keeps_escSendText (s : State) : s.Keeps s.escSendText.last := by
  rcases s.escSendText_cases with ⟨e, -, h⟩ | ⟨e, n, -, h⟩ <;> rw [h] <;> exact .of_same rfl rfl rfl

theorem exec_decodePoll_keeps {s t : State} (h : exec (decodePoll s.ev) s = .next t) : s.Keeps t := by
  rcases exec_decodePoll_eq_next h with rfl | rfl | rfl | ⟨-, rfl⟩ | rfl
  · exact ⟨rfl, fun _ => rfl, fun _ _ => rfl⟩
  · exact .of_same rfl rfl rfl
  · exact .of_same rfl rfl rfl
  · have hflag : s.Keeps { s with dbConf := true } := .of_same rfl rfl rfl
    exact hflag.trans (State.keeps_escalate _)
  · exact .of_same rfl rfl rfl

theorem State.keeps_of_sample_eq_goes {s u : State} (hu : s.sample = .goes u) : s.Keeps u := by
  obtain ⟨e, l, -, rfl⟩ := State.sample_eq_goes hu
  exact .of_same rfl rfl rfl

theorem step_keeps {s t : State} (h : step s = .next t) : s.Keeps t := by
  obtain ⟨-, ⟨-, c, -, hx⟩ | ⟨-, -, b, rest, -, hx⟩ | ⟨-, -, -, rfl⟩ | ⟨-, u, hu, hx⟩ | ⟨-, u, hu, rfl⟩ | ⟨hs, rfl⟩ |
    ⟨-, rfl⟩⟩ := step_cases h
  · have htake : s.Keeps { s with cmd := none } := .of_same rfl rfl rfl
    exact htake.trans ((exec_decodeCommand_eq_next hx).elim State.Answered.keeps State.RelayWritten.keeps)
  · have hpop : s.Keeps (s.tick.rxPop b rest) := .of_same rfl rfl rfl
    rcases exec_decodeByte_eq_next hx with rfl | ⟨-, rfl⟩
    · exact hpop.trans (State.keeps_feedTerminator _)
    · exact hpop.trans (State.keeps_feedData _ b)
  · exact .of_same rfl rfl rfl
  · exact (State.keeps_of_sample_eq_goes hu).trans (exec_decodePoll_keeps hx)
  · obtain ⟨e, -, rfl⟩ := State.sample_eq_hangs hu
    exact .of_same rfl rfl rfl
  · rw [s.escWaitPoll_eq hs]
    exact .of_same rfl rfl rfl
  · exact s.keeps_escSendText

theorem run_succ_eq_next {k : Nat} {s t : State} (h : Host.Core.run Sys2Proof.core (k + 1) s = .next t) :
    ∃ u, step s = .next u ∧ Host.Core.run Sys2Proof.core k u = .next t := by
  simp only [Host.Core.run] at h
  split at h
  · exact ⟨_, ‹_›, h⟩
  · cases h
  · cases h

theorem run_keeps {k : Nat} {s t : State} (h : Host.Core.run Sys2Proof.core k s = .next t) : s.Keeps t := by
  induction k generalizing s with
  | zero =>
    cases h
    exact .refl _
  | succ k ih =>
    obtain ⟨u, hu, hr⟩ := run_succ_eq_next h
    exact (step_keeps hu).trans (ih hr)

/-! ## What keeps the invariant -/

/-- The environment goes on, calls are recorded, the block may hang: no part of the invariant is touched. -/
theorem State.Inv.later {s : State} (h : s.Inv) {e : Env} (he : s.env.Later s.cfg.timeBits e) (tr : List Event)
    (hung : Bool) : State.Inv { s with env := e, trace := tr, hung := hung } where
  line := { h.line with }
  debounce := { h.debounce with }
  sequencer := { h.sequencer with }
  output := ⟨fun hc id k i hm => (he.latchLevel k i).trans (h.output.latched (he.capOk ▸ hc) id k i hm)⟩
  time := { h.time with
    window := fun p hp => by
      have hp : s.env.lastPoll = some p := he.lastPoll ▸ hp
      obtain ⟨hle, hlt⟩ := h.time.window p hp
      exact ⟨hle.trans he.time_le, he.time_lt p hp hlt⟩ }

theorem State.Answered.inv {s t : State} (ht : s.Answered t) (h : s.Inv) : t.Inv := by
  obtain ⟨e, new, hung, he, rfl⟩ := ht
  exact h.later he _ _

/-- Output registers, latches and the trace matter to the output invariant alone. -/
theorem State.Inv.withOutputs {s : State} (h : s.Inv) {a b la lb : BitVec 8} {tr : List Event}
    (ho : State.OutputInv
      { s with outA := a, outB := b, env := { s.env with latchA := la, latchB := lb }, trace := tr }) :
    State.Inv { s with outA := a, outB := b, env := { s.env with latchA := la, latchB := lb }, trace := tr } where
  line := { h.line with }
  debounce := { h.debounce with }
  sequencer := { h.sequencer with }
  output := ho
  time := { h.time with }

theorem State.outLevel_setLatch (s : State) (k k' : OutBank) (i j : BitIx) (l : Level) :
    (s.setLatch k i l).outLevel k' j = s.outLevel k' j := rfl

/-- A write that succeeds puts the same level into register and latch (20_memory.md R66). -/
theorem State.Inv.setLatch_gpioWrite {s : State} (h : s.Inv) (k : OutBank) (i : BitIx) (l : Level) :
    ((s.setLatch k i l).gpioWrite k i l).Inv := by
  have ho : ((s.setLatch k i l).gpioWrite k i l).OutputInv := ⟨fun hc id k' j hm => by
    have hs : s.env.latchLevel k' j = s.outLevel k' j := h.output.latched (by simpa using hc) id k' j hm
    simp only [State.gpioWrite_env, State.setLatch_env, Env.latchLevel_setLatch, State.outLevel_gpioWrite,
      State.outLevel_setLatch, hs]⟩
  cases k <;> exact h.withOutputs ho

/-- A write that fails leaves the latch behind, but nothing is said of the latch without `CAP_OK`. -/
theorem State.Inv.gpioWrite_of_not_capOk {s : State} (h : s.Inv) (hc : s.env.capOk = false) (k : OutBank) (i : BitIx)
    (l : Level) : (s.gpioWrite k i l).Inv := by
  have ho : (s.gpioWrite k i l).OutputInv := ⟨fun hc' => by simp [hc] at hc'⟩
  cases k <;> exact h.withOutputs ho

theorem State.RelayWritten.inv {s t : State} (ht : s.RelayWritten t) (h : s.Inv) : t.Inv := by
  obtain ⟨id, k, i, l, e, -, he, ht⟩ := ht
  have h' : State.Inv { s with env := e } := h.later (he.later _) s.trace s.hung
  rcases ht with rfl | ⟨hc, rfl⟩
  · exact h'.setLatch_gpioWrite k i l
  · exact h'.gpioWrite_of_not_capOk ((he.later s.cfg.timeBits).capOk.trans hc) k i l

/-- The line buffer, its flag and the Command matter to the line invariant and to two parts of the sequencer's. -/
theorem State.Inv.withLine {s : State} (h : s.Inv) {lb : Str} {ovf : Bool} {cmd : Option Str} {tr : List Event}
    (hl : State.LineInv { s with lb := lb, lbOvf := ovf, cmd := cmd, trace := tr }) (hd : cmd ≠ none → s.seq = .drain)
    (hp : ∀ c, cmd = some c → properCommand s.cfg c = true) :
    State.Inv { s with lb := lb, lbOvf := ovf, cmd := cmd, trace := tr } where
  line := hl
  debounce := { h.debounce with }
  sequencer := ⟨hd, hp, h.sequencer.escConfirmed⟩
  output := { h.output with }
  time := { h.time with }

theorem State.Inv.withoutCommand {s : State} (h : s.Inv) {lb : Str} {ovf : Bool} {tr : List Event}
    (hl : State.LineInv { s with lb := lb, lbOvf := ovf, cmd := none, trace := tr }) :
    State.Inv { s with lb := lb, lbOvf := ovf, cmd := none, trace := tr } :=
  h.withLine hl (fun hc => (hc rfl).elim) (fun _ hc => by cases hc)

/-- An empty buffer without overflow meets the line invariant. -/
theorem State.lineInv_of_empty {s : State} (hl : s.lb = []) (ho : s.lbOvf = false) : s.LineInv where
  noTerminator b hb := by simp [hl] at hb
  bounded m _ := by simp [hl]
  ovfAtBound h := by simp [ho] at h

theorem State.Inv.feedTerminator {s : State} (h : s.Inv) (hs : s.seq = .drain) : s.feedTerminator.Inv := by
  rcases s.feedTerminator_cases with ⟨-, hf⟩ | ⟨ho, -, hf⟩ | ⟨ho, hl, hf⟩ <;> rw [hf]
  · exact h.withoutCommand (State.lineInv_of_empty rfl rfl)
  · refine h.withLine (State.lineInv_of_empty rfl ho) (fun _ => hs) fun c hc => ?_
    obtain rfl := Option.some.inj hc
    exact properCommand_trim h.line.noTerminator
  · exact h.withoutCommand (State.lineInv_of_empty hl ho)

/-- A byte that finds the buffer full finds it at the bound, which it never exceeds (10_state.md R39, I2). -/
theorem State.LineInv.lineMax_of_lbFull {s : State} (h : s.LineInv) (hf : s.lbFull = true) :
    s.cfg.lineMax = some s.lb.length := by
  obtain ⟨m, hm, hle⟩ := State.lbFull_eq_true.mp hf
  rw [hm, (h.bounded m hm).antisymm hle]

/-- While there is room no line is marked over-long (10_state.md R39, I3). -/
theorem State.LineInv.lbOvf_of_not_lbFull {s : State} (h : s.LineInv) (hf : s.lbFull = false) : s.lbOvf = false := by
  by_contra ho
  have := State.lbFull_eq_false.mp hf _ (h.ovfAtBound (by simpa using ho))
  omega

theorem State.Inv.feedData {s : State} (h : s.Inv) {b : Byte} (hb : isTerminator b = false) : (s.feedData b).Inv := by
  rcases s.feedData_cases b with ⟨hf, hd⟩ | ⟨hf, hd⟩ <;> rw [hd]
  · exact h.withoutCommand { h.line with ovfAtBound := fun _ => h.line.lineMax_of_lbFull hf }
  · refine h.withoutCommand ⟨fun x hx => ?noTerminator, fun m hm => ?bounded, fun ho => ?ovfAtBound⟩
    case noTerminator =>
      rcases List.mem_append.mp hx with hx | hx
      · exact h.line.noTerminator x hx
      · obtain rfl := List.mem_singleton.mp hx
        exact isTerminator_eq_false.mp hb
    case bounded =>
      have : s.lb.length < m := State.lbFull_eq_false.mp hf m hm
      simpa using this
    case ovfAtBound =>
      have : s.lbOvf = true := ho
      simp [h.line.lbOvf_of_not_lbFull hf] at this

/-- Outside the drain phase no Command is in transit. -/
theorem State.SequencerInv.cmd_eq_none {s : State} (h : s.SequencerInv) (hs : s.seq ≠ .drain) : s.cmd = none :=
  not_not.mp fun hc => hs (h.cmdInDrain hc)

/-- Another phase and a time of the pause: no Command may wait outside the drain phase, and an escalation needs its
flag. -/
theorem State.Inv.withPhase {s : State} (h : s.Inv) {p : Phase} {t0 : Timestamp} (hc : s.cmd = none ∨ p = .drain)
    (he : p = .escWait ∨ p = .escSend → s.dbConf = true) (ht : t0 < 2 ^ s.cfg.timeBits) :
    State.Inv { s with seq := p, escT0 := t0 } where
  line := { h.line with }
  debounce := { h.debounce with }
  sequencer := ⟨hc.resolve_left, h.sequencer.cmdProper, he⟩
  output := { h.output with }
  time := { h.time with escT0 := ht }

theorem State.Inv.toDrain {s : State} (h : s.Inv) : State.Inv { s with seq := .drain } :=
  h.withPhase (.inr rfl) (by simp) h.time.escT0

/-- After a sample the poll just taken is the last one, and no time has passed since. -/
theorem State.Inv.sample {s u : State} (h : s.Inv) (hu : s.sample = .goes u) : u.Inv := by
  obtain ⟨e, l, he, rfl⟩ := State.sample_eq_goes hu
  exact {
    line := { h.line with }
    debounce := { h.debounce with }
    sequencer := { h.sequencer with }
    output := { (h.later he s.trace s.hung).output with }
    time := { h.time with
      pollNow := Env.counter_lt _ _
      window := fun p hp => by
        obtain rfl := Option.some.inj hp
        exact ⟨le_rfl, Nat.lt_add_of_pos_right (Nat.two_pow_pos _)⟩ } }

theorem State.Inv.sampleHangs {s u : State} (h : s.Inv) (hu : s.sample = .hangs u) :
    State.Inv { u with hung := true } := by
  obtain ⟨e, he, rfl⟩ := State.sample_eq_hangs hu
  exact h.later he _ _

/-- The debounce registers written, an escalation not being under way. -/
theorem State.Inv.withDebounce {s : State} (h : s.Inv) (hs : s.seq = .debounce) {init conf : Bool} {level : Level}
    {tchg tstart : Timestamp} (hc : conf = true → init = true) (ht : init = true → tchg = tstart)
    (hchg : tchg < 2 ^ s.cfg.timeBits) (hstart : tstart < 2 ^ s.cfg.timeBits) :
    (s.withDebounce init level tchg tstart conf).Inv where
  line := { h.line with }
  debounce := ⟨hc, ht⟩
  sequencer := { h.sequencer with
    escConfirmed := fun he => by
      have he : s.seq = .escWait ∨ s.seq = .escSend := he
      simp [hs] at he }
  output := { h.output with }
  time := { h.time with tchg := hchg, tstart := hstart }

/-- The pause of an escalation begins with the flag set. -/
theorem State.Inv.beginPause {s : State} (h : s.Inv) (hcmd : s.cmd = none) (hc : s.dbConf = true) :
    s.beginPause.Inv := by
  rw [s.beginPause_eq]
  exact (h.later (s.env.later_tick _) _ s.hung).withPhase (.inl hcmd) (fun _ => hc) (Env.counter_lt _ _)

theorem State.Inv.escalate {s : State} (h : s.Inv) (hcmd : s.cmd = none) (hc : s.dbConf = true) :
    s.escalate.last.Inv := by
  rcases s.escalate_cases with ⟨e, he, hx⟩ | ⟨e, he, hx⟩ <;> rw [hx]
  · exact (h.later (he.later _) _ s.hung).beginPause hcmd hc
  · exact h.later (he.later _) _ _

/-- Every case of the debounce step keeps the invariant; the level it records is not part of it. -/
theorem exec_decodePoll_inv {s t : State} (h : s.Inv) (hs : s.seq = .debounce)
    (hx : exec (decodePoll s.ev) s = .next t) : t.Inv := by
  have hnow := h.time.pollNow
  rcases exec_decodePoll_eq_next hx with rfl | rfl | rfl | ⟨hi, rfl⟩ | rfl
  · exact (h.withDebounce hs (fun _ => rfl) (fun _ => rfl) hnow hnow).toDrain
  · exact (h.withDebounce hs (fun hc => (Bool.false_ne_true hc).elim) (fun _ => rfl) hnow hnow).toDrain
  · have hlevel : State.Inv { s with dbLevel := s.pollLevel } :=
      h.withDebounce hs h.debounce.confInit h.debounce.oneTime h.time.tchg h.time.tstart
    exact hlevel.toDrain
  · have hconf : State.Inv { s with dbConf := true } :=
      h.withDebounce hs (fun _ => hi) h.debounce.oneTime h.time.tchg h.time.tstart
    exact hconf.escalate (h.sequencer.cmd_eq_none (by simp [hs])) rfl
  · exact h.toDrain

theorem State.Inv.escWaitPoll {s : State} (h : s.Inv) (hs : s.seq = .escWait) : s.escWaitPoll.Inv := by
  have hcmd : s.cmd = none := h.sequencer.cmd_eq_none (by simp [hs])
  have hconf : s.dbConf = true := h.sequencer.escConfirmed (.inl hs)
  rw [s.escWaitPoll_eq hs]
  exact (h.later (s.env.later_tick _) _ s.hung).withPhase (.inl hcmd) (fun _ => hconf) h.time.escT0

theorem State.Inv.escSendText {s : State} (h : s.Inv) : s.escSendText.last.Inv := by
  rcases s.escSendText_cases with ⟨e, he, hx⟩ | ⟨e, n, he, hx⟩ <;> rw [hx]
  · exact (h.later (he.later _) _ s.hung).toDrain
  · exact h.later (he.later _) _ _

/-- The byte taken off the stream is no part of the invariant. -/
theorem State.Inv.rxPop {s : State} (h : s.Inv) (b : Byte) (rest : Str) : (s.tick.rxPop b rest).Inv :=
  h.later ((s.env.later_tick _).withRx rest) _ s.hung

theorem step_inv {s t : State} (h : s.Inv) (hstep : step s = .next t) : t.Inv := by
  obtain ⟨-, ⟨-, c, -, hx⟩ | ⟨hs, -, b, rest, -, hx⟩ | ⟨-, hc, -, rfl⟩ | ⟨hs, u, hu, hx⟩ | ⟨-, u, hu, rfl⟩ | ⟨hs, rfl⟩ |
    ⟨-, rfl⟩⟩ := step_cases hstep
  · have htake : State.Inv { s with cmd := none } := h.withoutCommand { h.line with }
    exact (exec_decodeCommand_eq_next hx).elim (·.inv htake) (·.inv htake)
  · have hpop : (s.tick.rxPop b rest).Inv := h.rxPop b rest
    rcases exec_decodeByte_eq_next hx with rfl | ⟨hb, rfl⟩
    · exact hpop.feedTerminator hs
    · exact hpop.feedData hb
  · exact (h.later (s.env.later_tick _) s.trace s.hung).withPhase (.inl hc) (by simp) h.time.escT0
  · exact exec_decodePoll_inv (h.sample hu) ((State.seq_of_sample_eq_goes hu).trans hs) hx
  · exact h.sampleHangs hu
  · exact h.escWaitPoll hs
  · exact h.escSendText

/-! ## The state after reset -/

theorem bankLevel_setWidth_relayReset (c : Config) (i : BitIx) :
    bankLevel (c.relayReset.setWidth 8) i = bitLevel (c.relayReset.getLsbD i.val) := by
  simp [bankLevel]

/-- The relay bits of bank B are bits 8 to 10 of `RELAY_RESET`, whatever stands above them (10_state.md R30). -/
theorem bankLevel_resetB (c : Config) (high : BitVec 5) {i : BitIx} (hi : i.val ≤ 2) :
    bankLevel (resetB c high) i = bitLevel (c.relayReset.getLsbD (8 + i.val)) := by
  have hlt : i.val < 3 := by omega
  simp only [bankLevel, resetB, BitVec.getLsbD_append, BitVec.getLsbD_extractLsb', hlt, decide_true, if_true,
    Bool.true_and]

theorem State.resetWith_inv (c : Config) (u : Unspecified) (e : Env) (tr : List Event) :
    (State.resetWith c u e tr).Inv where
  line := State.lineInv_of_empty rfl rfl
  debounce := ⟨fun h => (Bool.false_ne_true h).elim, fun h => (Bool.false_ne_true h).elim⟩
  sequencer :=
    { cmdInDrain := fun _ => rfl
      cmdProper := fun _ h => nomatch h
      escConfirmed := fun h => by simp [State.resetWith] at h }
  output := ⟨fun _ id k i hm => by
    cases k with
    | outA => rfl
    | outB =>
      have hi := relayMap_outB_le_two hm
      exact (bankLevel_resetB c _ hi).trans (bankLevel_resetB c _ hi).symm⟩
  time :=
    have hlt (t : Timestamp) : t % 2 ^ c.timeBits < 2 ^ c.timeBits := Nat.mod_lt _ (Nat.two_pow_pos _)
    ⟨hlt _, hlt _, hlt _, hlt _, fun _ h => nomatch h⟩

/-! ## The pause of the escalation -/

theorem step_of_escWait {s : State} (hh : s.hung = false) (hs : s.seq = .escWait) : step s = .next s.escWaitPoll := by
  simp [step, State.fetch, State.fetchPhase, hh, hs]

end Sys2Proof.Machine

open Sys2Proof Sys2Proof.Machine

/-- Settles O39: the invariant by the cases of a step, and (I6) as part of what every step keeps from any state. -/
theorem everyStepKeepsTheInvariant : Obligations.EveryStepKeepsTheInvariant :=
  fun _ _ h hstep => ⟨step_inv h hstep, (step_keeps hstep).dbInit⟩

/-- Settles O43: the parameters are part of what every step keeps. -/
theorem parametersNeverChange : Obligations.ParametersNeverChange :=
  fun _ _ hstep => (step_keeps hstep).cfg

/-- Settles O50, by induction on the number of steps: the only bits of bank B that a step writes are relays' bits. -/
theorem upperOutBBitsNeverChange : Obligations.UpperOutBBitsNeverChange :=
  fun _ _ _ hrun => (run_keeps hrun).upperOutB

/-- Settles O16: the step of the pause is one look at the clock. -/
theorem escWaitOnlyLooksAtTheClock : Obligations.EscWaitOnlyLooksAtTheClock :=
  fun s hh hs => ⟨_, _, rfl, rfl, by rw [step_of_escWait hh hs, s.escWaitPoll_eq hs]; rfl⟩

/-- Settles O40: the two banks' relay bits are the same in register and latch, and each timestamp is reduced. -/
theorem invariantHoldsAfterReset : Obligations.InvariantHoldsAfterReset := State.resetWith_inv

/-- Settles O41: the bits of both banks are those of `RELAY_RESET`, and eleven ones in the reference configuration. -/
theorem registersAfterReset : Obligations.RegistersAfterReset := by
  refine ⟨fun c u e tr => ⟨rfl, rfl, rfl, rfl, rfl, rfl, fun i => ?bankA, fun i hi => ?bankB⟩, by decide, by decide⟩
  case bankA => exact bankLevel_setWidth_relayReset c i
  case bankB => exact bankLevel_resetB c u.outBHigh hi

end

