-- ==== Sys2Proof/Proofs/Memory.lean ====
section
/-! The boundary calls (20_memory.md): the relay map, what a step pops and which pins it touches, the trace that nothing
reads, and the calls that never return. -/

namespace Sys2Proof.Machine

/-! ## The mappers -/

/-- A place holds one relay only. -/
theorem relayMap_inj {id id' : Nat} (hid : 1 ≤ id ∧ id ≤ 11) (h : relayMap id = relayMap id') : id = id' := by
  obtain ⟨⟨k, i⟩, hm⟩ := Option.isSome_iff_exists.mp (relayMap_isSome.mpr hid)
  rcases relayMap_eq_some hm with ⟨_, _, rfl, hi⟩ | ⟨_, _, rfl, hi⟩ <;>
    rcases relayMap_eq_some (h ▸ hm) with ⟨_, _, hk, hi'⟩ | ⟨_, _, hk, hi'⟩ <;> cases hk <;> omega

theorem relayMap_eq_none {id : Nat} (h : id = 0 ∨ 12 ≤ id) : relayMap id = none := by
  have : ¬(relayMap id).isSome := by
    rw [relayMap_isSome]
    omega
  simpa using this

/-- The place of an input within the range (20_memory.md R63). -/
theorem inputMap_of_le {id : Nat} (h1 : 1 ≤ id) (h8 : id ≤ 8) :
    inputMap id = some (.inA, Fin.ofNat 8 (id - 1)) := if_pos ⟨h1, h8⟩

theorem inputMap_eq_none {id : Nat} (h : id = 0 ∨ 9 ≤ id) : inputMap id = none := if_neg (by omega)

/-- Every input is in bank A (20_memory.md R63). -/
theorem inputMap_bank {id : Nat} {k : InBank} {i : BitIx} (h : inputMap id = some (k, i)) : k = .inA := by
  unfold inputMap at h
  split at h <;> cases h
  rfl

/-! ## What a phase steps to -/

theorem step_of_drain_byte {s : State} {b : Byte} {rest : Str} (hh : s.hung = false) (hs : s.seq = .drain)
    (hc : s.cmd = none) (hr : s.tick.env.rx = b :: rest) : step s = exec (decodeByte b) (s.tick.rxPop b rest) := by
  simp only [step, State.fetch, State.fetchPhase, State.fetchDrain, hh, hs, hc, hr, Bool.false_eq_true, if_false]

theorem step_of_sample_hangs {s u : State} (hh : s.hung = false) (hs : s.seq = .debounce)
    (hu : s.sample = .hangs u) : step s = .next { u with hung := true } := by
  simp only [step, State.fetch, State.fetchPhase, State.fetchDebounce, hh, hs, hu, Bool.false_eq_true, if_false]

theorem step_of_escSend {s : State} (hh : s.hung = false) (hs : s.seq = .escSend) :
    step s = .next s.escSendText.last := by
  simp only [step, State.fetch, State.fetchPhase, hh, hs, Bool.false_eq_true, if_false]

theorem step_of_hung {s : State} (hh : s.hung = true) : step s = .fault .capabilityHang := by
  simp [step, State.fetch, hh]

/-! ## Which pins a step touches -/

/-- A call that a step may make: a read is of bank A or of the button, a write is of bank A or of a relay's bit of
bank B (20_memory.md R64, R65). -/
def Event.Mapped (c : Config) (e : Event) : Prop :=
  (∀ k i l, e = .gpioRead k i l → k = .inA ∨ (k = c.buttonBank ∧ i = c.buttonBit)) ∧
  (∀ k i l, e = .gpioWrite k i l → k = .outA ∨ i.val ≤ 2)

@[simp] theorem Event.mapped_rxPop (c : Config) (b : Byte) : (Event.rxPop b).Mapped c := by simp [Event.Mapped]
@[simp] theorem Event.mapped_txWrite (c : Config) (b : Byte) : (Event.txWrite b).Mapped c := by simp [Event.Mapped]
@[simp] theorem Event.mapped_adcRead (c : Config) (ch n : Nat) : (Event.adcRead ch n).Mapped c := by simp [Event.Mapped]
@[simp] theorem Event.mapped_nowRead (c : Config) (t : Timestamp) : (Event.nowRead t).Mapped c := by simp [Event.Mapped]
@[simp] theorem Event.mapped_log (c : Config) (code : LogCode) (a : Byte) : (Event.log code a).Mapped c := by
  simp [Event.Mapped]
@[simp] theorem Event.mapped_gpioRead_inA (c : Config) (i : BitIx) (l : Level) : (Event.gpioRead .inA i l).Mapped c := by
  simp [Event.Mapped]
@[simp] theorem Event.mapped_gpioRead_button (c : Config) (l : Level) :
    (Event.gpioRead c.buttonBank c.buttonBit l).Mapped c := by
  simp +contextual [Event.Mapped]

theorem Event.mapped_gpioWrite {id : Nat} {k : OutBank} {i : BitIx} (hm : relayMap id = some (k, i)) (c : Config)
    (l : Level) : (Event.gpioWrite k i l).Mapped c := by
  refine ⟨fun k' i' l' h => (by cases h), fun k' i' l' h => ?_⟩
  cases h
  cases k with
  | outA => exact .inl rfl
  | outB => exact .inr (relayMap_outB_le_two hm)

@[simp] theorem Event.mapped_txEvents (c : Config) (t : Str) : ∀ e ∈ txEvents t, e.Mapped c := by
  simp [txEvents]

/-- From s to t, calls that the configuration allows were added to the trace. -/
def State.AddsMapped (c : Config) (s t : State) : Prop :=
  ∃ new, t.trace = s.trace ++ new ∧ ∀ e ∈ new, e.Mapped c

theorem State.AddsMapped.of_eq {c : Config} {s t : State} (h : t.trace = s.trace) : State.AddsMapped c s t :=
  ⟨[], by simp [h], by simp⟩

theorem State.AddsMapped.trans {c : Config} {s t u : State} (h : State.AddsMapped c s t)
    (h' : State.AddsMapped c t u) : State.AddsMapped c s u := by
  obtain ⟨new, ht, hn⟩ := h
  obtain ⟨new', hu, hn'⟩ := h'
  exact ⟨new ++ new', by rw [hu, ht, List.append_assoc], fun e he => (List.mem_append.mp he).elim (hn e) (hn' e)⟩

theorem State.addsMapped_emit {c : Config} {e : Event} (s : State) (h : e.Mapped c) : State.AddsMapped c s (s.emit e) :=
  ⟨[e], rfl, by simpa using h⟩

theorem State.addsMapped_setRelay {s t : State} {id : Nat} {on : Bool} (c : Config)
    (h : s.setRelay id on = .next t) : State.AddsMapped c s t := by
  obtain ⟨k, i, e, hm, -, rfl | ⟨-, rfl⟩ | rfl⟩ := State.setRelay_eq_next h
  · exact ⟨_, State.gpioWrite_trace _ _ _ _, by simpa using Event.mapped_gpioWrite hm c _⟩
  · exact ⟨_, State.gpioWrite_trace _ _ _ _, by simpa using Event.mapped_gpioWrite hm c _⟩
  · exact .of_eq rfl

theorem State.addsMapped_readInput {s t : State} {id : Nat} (c : Config) (h : s.readInput id = .next t) :
    State.AddsMapped c s t := by
  obtain ⟨k, i, e, new, hung, hm, -, rfl, hnew⟩ := State.readInput_eq_next h
  obtain rfl := inputMap_bank hm
  refine ⟨new, rfl, fun ev hev => ?_⟩
  rcases hnew ev hev with ⟨l, rfl⟩ | ⟨b, rfl⟩ | ⟨code, a, rfl⟩ <;> simp

theorem State.addsMapped_sampleAnalog (c : Config) (s : State) : State.AddsMapped c s s.sampleAnalog.last := by
  obtain ⟨e, new, hung, -, ht, hnew⟩ := s.sampleAnalog_cases
  rw [ht]
  refine ⟨new, rfl, fun ev hev => ?_⟩
  rcases hnew ev hev with ⟨n, rfl⟩ | ⟨b, rfl⟩ <;> simp

theorem exec_decodeCommand_addsMapped {g c : Config} {text : Str} {s t : State}
    (h : exec (decodeCommand g text) s = .next t) : State.AddsMapped c s t := by
  rcases decodeCommand_cases g text with ⟨-, hd⟩ | ⟨n, -, -, hd | hd⟩ | ⟨n, -, hd⟩ | ⟨n, -, -, hd⟩ | ⟨n, -, hd⟩ |
    ⟨-, hd⟩ | ⟨-, -, -, -, hd⟩ <;> rw [hd] at h
  · exact Host.Outcome.next.inj h ▸ s.addsMapped_emit (Event.mapped_log c _ _)
  · exact s.addsMapped_setRelay c h
  · exact s.addsMapped_setRelay c h
  · exact Host.Outcome.next.inj h ▸ s.addsMapped_emit (Event.mapped_log c _ _)
  · exact s.addsMapped_readInput c h
  · exact .of_eq (congrArg State.trace (Host.Outcome.next.inj h).symm)
  · exact Host.Outcome.next.inj h ▸ s.addsMapped_sampleAnalog c
  · exact Host.Outcome.next.inj h ▸ s.addsMapped_emit (Event.mapped_log c _ _)

theorem exec_decodeByte_addsMapped {b : Byte} {c : Config} {s t : State} (h : exec (decodeByte b) s = .next t) :
    State.AddsMapped c s t := by
  rcases exec_decodeByte_eq_next h with rfl | ⟨-, rfl⟩
  · rcases s.feedTerminator_cases with ⟨-, hf⟩ | ⟨-, -, hf⟩ | ⟨-, -, hf⟩ <;> rw [hf]
    · exact ⟨_, rfl, by simp⟩
    · exact .of_eq rfl
    · exact .of_eq rfl
  · rcases s.feedData_cases b with ⟨-, hf⟩ | ⟨-, hf⟩ <;> rw [hf] <;> exact .of_eq rfl

theorem State.addsMapped_escalate (c : Config) (s : State) : State.AddsMapped c s s.escalate.last := by
  rcases s.escalate_cases with ⟨e, -, h⟩ | ⟨e, -, h⟩ <;> rw [h]
  · exact ⟨[.txWrite charCR, .nowRead _], by rw [State.beginPause_eq]; simp; rfl, by simp⟩
  · exact .of_eq rfl

theorem exec_decodePoll_addsMapped {c : Config} {s t : State} (h : exec (decodePoll s.ev) s = .next t) :
    State.AddsMapped c s t := by
  rcases exec_decodePoll_eq_next h with rfl | rfl | rfl | ⟨-, rfl⟩ | rfl
  · exact .of_eq rfl
  · exact .of_eq rfl
  · exact .of_eq rfl
  · exact State.addsMapped_escalate c { s with dbConf := true }
  · exact .of_eq rfl

theorem State.addsMapped_escSendText (c : Config) (s : State) : State.AddsMapped c s s.escSendText.last := by
  rcases s.escSendText_cases with ⟨e, -, h⟩ | ⟨e, n, -, h⟩ <;> rw [h] <;> exact ⟨_, rfl, Event.mapped_txEvents c _⟩

/-- The sample reads the button (45_debounce_edge.md R225). -/
theorem State.addsMapped_sample {s u : State} (hu : s.sample = .goes u) : State.AddsMapped s.cfg s u := by
  obtain ⟨e, l, -, rfl⟩ := State.sample_eq_goes hu
  exact ⟨_, rfl, by simp⟩

theorem step_addsMapped {s t : State} (h : step s = .next t) : State.AddsMapped s.cfg s t := by
  obtain ⟨-, ⟨-, c, -, hx⟩ | ⟨-, -, b, rest, -, hx⟩ | ⟨-, -, -, rfl⟩ | ⟨-, u, hu, hx⟩ | ⟨-, u, hu, rfl⟩ | ⟨hs, rfl⟩ |
    ⟨-, rfl⟩⟩ := step_cases h
  · exact exec_decodeCommand_addsMapped (s := { s with cmd := none }) hx
  · have hpop : State.AddsMapped s.cfg s (s.tick.rxPop b rest) := ⟨_, rfl, by simp⟩
    exact hpop.trans (exec_decodeByte_addsMapped hx)
  · exact .of_eq rfl
  · exact (State.addsMapped_sample hu).trans (exec_decodePoll_addsMapped hx)
  · obtain ⟨e, -, rfl⟩ := State.sample_eq_hangs hu
    exact .of_eq rfl
  · rw [s.escWaitPoll_eq hs]
    exact ⟨_, rfl, by simp⟩
  · exact s.addsMapped_escSendText s.cfg

/-! ## Another past

Every operation commutes with calls put before those of the trace: it writes behind them and does not look at them. -/

/-- s with another past before its own calls. -/
def State.withPast (s : State) (past : List Event) : State := { s with trace := past ++ s.trace }

/-- What has come so far, with another past: f gives the result another past. -/
def Progress.withPast {α : Type} (past : List Event) (f : α → α) : Progress α → Progress α
  | .goes a => .goes (f a)
  | .hangs s => .hangs (s.withPast past)

/-- An outcome with another past. -/
def outcomeWithPast (past : List Event) : Host.Outcome State Fault Refusal → Host.Outcome State Fault Refusal
  | .next s => .next (s.withPast past)
  | .fault r => .fault r
  | .refused r => .refused r

/-- A state that comes with a value, with another past. -/
def pairWithPast {α : Type} (past : List Event) (p : α × State) : α × State := (p.1, p.2.withPast past)

section
variable (past : List Event) (s : State)

@[simp] theorem State.withPast_cfg : (s.withPast past).cfg = s.cfg := rfl
@[simp] theorem State.withPast_lbFull : (s.withPast past).lbFull = s.lbFull := rfl
@[simp] theorem State.withPast_seq : (s.withPast past).seq = s.seq := rfl
@[simp] theorem State.withPast_escT0 : (s.withPast past).escT0 = s.escT0 := rfl
@[simp] theorem State.withPast_cmd : (s.withPast past).cmd = s.cmd := rfl
@[simp] theorem State.withPast_hung : (s.withPast past).hung = s.hung := rfl
@[simp] theorem State.withPast_env : (s.withPast past).env = s.env := rfl
@[simp] theorem State.withPast_clockNow : (s.withPast past).clockNow = s.clockNow := rfl

theorem State.emit_withPast (e : Event) : (s.withPast past).emit e = (s.emit e).withPast past := by
  simp [State.emit, State.withPast]

theorem State.rxPop_withPast (b : Byte) (rest : Str) :
    (s.withPast past).rxPop b rest = (s.rxPop b rest).withPast past := by
  simp [State.rxPop, State.emit, State.withPast]

theorem State.txWrite_withPast (b : Byte) : (s.withPast past).txWrite b = (s.txWrite b).withPast past := by
  simp [State.txWrite, State.emit, State.withPast]

theorem State.nowRead_withPast : (s.withPast past).nowRead = s.nowRead.withPast past := by
  simp [State.nowRead, State.tick, State.clockNow, State.emit, State.withPast]

theorem State.gpioWrite_withPast (k : OutBank) (i : BitIx) (l : Level) :
    (s.withPast past).gpioWrite k i l = (s.gpioWrite k i l).withPast past := by
  cases k <;> simp [State.gpioWrite, State.emit, State.withPast]

theorem State.logEvent_withPast (c : LogCode) (a : Byte) :
    (s.withPast past).logEvent c a = (s.logEvent c a).withPast past := s.emit_withPast past _

theorem State.feedTerminator_withPast : (s.withPast past).feedTerminator = s.feedTerminator.withPast past := by
  rcases s.feedTerminator_cases with ⟨ho, hf⟩ | ⟨ho, hl, hf⟩ | ⟨ho, hl, hf⟩ <;> rw [hf]
  · simp [State.feedTerminator, State.logEvent, State.emit, State.withPast, ho]
  · simp [State.feedTerminator, State.withPast, ho, List.length_pos_iff.mpr hl]
  · simp [State.feedTerminator, State.withPast, ho, hl]

theorem State.feedData_withPast (b : Byte) : (s.withPast past).feedData b = (s.feedData b).withPast past := by
  unfold State.feedData
  rw [State.withPast_lbFull]
  split <;> rfl

theorem State.call_withPast {α : Type} {f : Option Nat → State → α} {g : α → α}
    (hf : ∀ bad t, f bad (t.withPast past) = g (f bad t)) :
    (s.withPast past).call f = (s.call f).withPast past g := by
  have hdraw : (s.withPast past).drawFate = s.drawFate.withPast past := rfl
  unfold State.call
  rw [State.withPast_env, hdraw]
  cases s.env.fate with
  | done => exact congrArg Progress.goes (hf none s.drawFate)
  | failed n => exact congrArg Progress.goes (hf (some n) s.drawFate)
  | hangs => rfl

/-- What goes on after a call, with another past from there on. -/
theorem Progress.andThen_withPast {α β : Type} {p : Progress α} {g : α → α} {g' : β → β} {k : α → Progress β}
    (hk : ∀ a, k (g a) = (k a).withPast past g') :
    (p.withPast past g).andThen k = (p.andThen k).withPast past g' := by
  cases p with
  | goes a => exact hk a
  | hangs t => rfl

theorem Progress.last_withPast {p q : Progress State} (h : q = p.withPast past (State.withPast · past)) :
    q.last = p.last.withPast past := by
  subst h
  cases p <;> rfl

theorem State.writePin_withPast (k : OutBank) (i : BitIx) (l : Level) :
    (s.withPast past).writePin k i l = (s.writePin k i l).withPast past (State.withPast · past) := by
  refine s.call_withPast past fun bad t => ?_
  cases bad with
  | none => exact (t.setLatch k i l).gpioWrite_withPast past k i l
  | some n => exact t.gpioWrite_withPast past k i l

theorem State.readPin_withPast (k : InBank) (i : BitIx) :
    (s.withPast past).readPin k i = (s.readPin k i).withPast past (pairWithPast past) :=
  s.tick.call_withPast past fun _ t => Prod.ext rfl (t.emit_withPast past _)

theorem State.readAdc_withPast : (s.withPast past).readAdc = s.readAdc.withPast past (pairWithPast past) :=
  s.tick.call_withPast past fun _ t => Prod.ext rfl (t.emit_withPast past _)

theorem State.sendByte_withPast (b : Byte) :
    (s.withPast past).sendByte b = (s.sendByte b).withPast past (State.withPast · past) := by
  refine s.call_withPast past fun bad t => ?_
  cases bad with
  | none => exact t.txWrite_withPast past b
  | some n => exact t.emit_withPast past _

theorem State.sendStr_withPast (t : Str) :
    (s.withPast past).sendStr t = (s.sendStr t).withPast past (State.withPast · past) := by
  induction t generalizing s with
  | nil => rfl
  | cons b t ih =>
    rw [State.sendStr, State.sendStr, State.sendByte_withPast]
    exact Progress.andThen_withPast past fun u => ih u

theorem State.setRelay_withPast (id : Nat) (on : Bool) :
    (s.withPast past).setRelay id on = outcomeWithPast past (s.setRelay id on) := by
  unfold State.setRelay
  split
  · exact congrArg Host.Outcome.next (Progress.last_withPast past (s.writePin_withPast past _ _ _))
  · rfl

theorem State.answerInput_withPast (id : Nat) (k : InBank) (i : BitIx) :
    (s.withPast past).answerInput id k i = (s.answerInput id k i).withPast past (State.withPast · past) := by
  unfold State.answerInput
  rw [State.readPin_withPast]
  refine Progress.andThen_withPast past fun ⟨l, t⟩ => ?_
  simp only [pairWithPast, State.sendStr_withPast]
  exact Progress.andThen_withPast past fun u => congrArg Progress.goes (u.logEvent_withPast past _ _)

theorem State.readInput_withPast (id : Nat) :
    (s.withPast past).readInput id = outcomeWithPast past (s.readInput id) := by
  unfold State.readInput
  split
  · exact congrArg Host.Outcome.next (Progress.last_withPast past (s.answerInput_withPast past id _ _))
  · rfl

theorem State.sampleAnalog_withPast :
    (s.withPast past).sampleAnalog = s.sampleAnalog.withPast past (State.withPast · past) := by
  unfold State.sampleAnalog
  rw [State.readAdc_withPast]
  exact Progress.andThen_withPast past fun ⟨n, t⟩ => t.sendStr_withPast past _

theorem State.beginPause_withPast : (s.withPast past).beginPause = s.beginPause.withPast past := by
  simp [State.beginPause_eq, State.withPast, State.clockNow]

theorem State.escalate_withPast :
    (s.withPast past).escalate = s.escalate.withPast past (State.withPast · past) := by
  unfold State.escalate
  rw [State.sendByte_withPast]
  exact Progress.andThen_withPast past fun t => congrArg Progress.goes (t.beginPause_withPast past)

theorem State.escSendText_withPast :
    (s.withPast past).escSendText = s.escSendText.withPast past (State.withPast · past) := by
  unfold State.escSendText
  rw [State.sendStr_withPast]
  exact Progress.andThen_withPast past fun t => rfl

theorem State.escWaitPoll_withPast : (s.withPast past).escWaitPoll = s.escWaitPoll.withPast past := by
  unfold State.escWaitPoll
  rw [State.nowRead_withPast, State.withPast_cfg, State.withPast_clockNow, State.withPast_escT0]
  split <;> rfl

theorem State.sampleTime_withPast : (s.withPast past).sampleTime = s.sampleTime.withPast past := by
  unfold State.sampleTime
  rw [State.nowRead_withPast]
  rfl

theorem State.sample_withPast :
    (s.withPast past).sample = s.sample.withPast past (State.withPast · past) := by
  unfold State.sample
  rw [State.withPast_cfg, State.readPin_withPast]
  exact Progress.andThen_withPast past fun ⟨l, t⟩ =>
    congrArg Progress.goes (State.sampleTime_withPast past { t with pollLevel := l })

theorem exec_withPast (i : Instr) : exec i (s.withPast past) = outcomeWithPast past (exec i s) := by
  cases i with
  | byteCr => exact congrArg Host.Outcome.next (s.feedTerminator_withPast past)
  | byteLf => exact congrArg Host.Outcome.next (s.feedTerminator_withPast past)
  | byteData b => exact congrArg Host.Outcome.next (s.feedData_withPast past b)
  | hardcheck => exact congrArg Host.Outcome.next (s.logEvent_withPast past _ _)
  | outOn id => exact s.setRelay_withPast past id true
  | outOff id => exact s.setRelay_withPast past id false
  | outRange n => exact congrArg Host.Outcome.next (s.logEvent_withPast past _ _)
  | inRead id => exact s.readInput_withPast past id
  | inRange n => rfl
  | ad => exact congrArg Host.Outcome.next (Progress.last_withPast past (s.sampleAnalog_withPast past))
  | unknown text => exact congrArg Host.Outcome.next (s.logEvent_withPast past _ _)
  | dbFirst => rfl
  | dbAccept => rfl
  | dbReject => rfl
  | dbFire =>
    have hesc := State.escalate_withPast past { s with dbConf := true }
    exact congrArg Host.Outcome.next (Progress.last_withPast past hesc)
  | dbHold => rfl

/-- What a phase selects, with another past. -/
def Fetched.withPast : Fetched → Fetched
  | .run i t => .run i (t.withPast past)
  | .move t => .move (t.withPast past)
  | .stuck => .stuck

theorem State.fetchDrain_withPast : (s.withPast past).fetchDrain = s.fetchDrain.withPast past := by
  have hrx : (s.withPast past).tick.env.rx = s.tick.env.rx := rfl
  unfold State.fetchDrain
  rw [State.withPast_cmd, hrx]
  cases s.cmd with
  | some c => rfl
  | none =>
    cases s.tick.env.rx with
    | nil => rfl
    | cons b rest => exact congrArg (Fetched.run _) (s.tick.rxPop_withPast past b rest)

theorem State.fetchDebounce_withPast : (s.withPast past).fetchDebounce = s.fetchDebounce.withPast past := by
  unfold State.fetchDebounce
  rw [State.sample_withPast]
  cases s.sample <;> rfl

theorem State.fetch_withPast : (s.withPast past).fetch = s.fetch.withPast past := by
  unfold State.fetch
  rw [State.withPast_hung]
  split
  · rfl
  · unfold State.fetchPhase
    rw [State.withPast_seq]
    cases s.seq with
    | drain => exact s.fetchDrain_withPast past
    | debounce => exact s.fetchDebounce_withPast past
    | escWait => exact congrArg Fetched.move (s.escWaitPoll_withPast past)
    | escSend => exact congrArg Fetched.move (Progress.last_withPast past (s.escSendText_withPast past))

theorem step_withPast : step (s.withPast past) = outcomeWithPast past (step s) := by
  unfold step
  rw [State.fetch_withPast]
  cases s.fetch with
  | run i t => exact exec_withPast past t i
  | move t => rfl
  | stuck => rfl

end

theorem outcomeWithPast_eq_next {past : List Event} {o : Host.Outcome State Fault Refusal} {t : State}
    (h : outcomeWithPast past o = .next t) : ∃ u, o = .next u ∧ t = u.withPast past := by
  cases o <;> cases h
  exact ⟨_, rfl, rfl⟩

/-! ## Calls that never return -/

theorem State.writePin_of_hangs {s : State} {rest : List CallFate} (hc : s.env.capOk = false)
    (hf : s.env.fates = .hangs :: rest) (k : OutBank) (i : BitIx) (l : Level) :
    s.writePin k i l = .hangs { s with env := { s.env with fates := rest } } :=
  State.call_of_cons hc hf _

theorem State.sendByte_of_hangs {s : State} {rest : List CallFate} (hc : s.env.capOk = false)
    (hf : s.env.fates = .hangs :: rest) (b : Byte) :
    s.sendByte b = .hangs { s with env := { s.env with fates := rest } } :=
  State.call_of_cons hc hf _

theorem State.readPin_of_hangs {s : State} {rest : List CallFate} (hc : s.env.capOk = false)
    (hf : s.env.fates = .hangs :: rest) (k : InBank) (i : BitIx) :
    s.readPin k i = .hangs { s with env := { s.env.tick s.cfg.timeBits with fates := rest } } :=
  State.call_of_cons (s := s.tick) (c := .hangs) (rest := rest) ((s.env.tick_capOk _).trans hc)
    ((s.env.tick_fates _).trans hf) _

theorem State.sample_of_hangs {s : State} {rest : List CallFate} (hc : s.env.capOk = false)
    (hf : s.env.fates = .hangs :: rest) :
    s.sample = .hangs { s with env := { s.env.tick s.cfg.timeBits with fates := rest } } := by
  rw [State.sample, State.readPin_of_hangs hc hf, Progress.andThen_hangs]

/-- A relay's write that hangs writes nothing. -/
theorem State.setRelay_of_hangs {s : State} {rest : List CallFate} (hc : s.env.capOk = false)
    (hf : s.env.fates = .hangs :: rest) {id : Nat} (hid : 1 ≤ id ∧ id ≤ 11) (on : Bool) :
    s.setRelay id on = .next { s with hung := true, env := { s.env with fates := rest } } := by
  obtain ⟨⟨k, i⟩, hm⟩ := Option.isSome_iff_exists.mp (relayMap_isSome.mpr hid)
  simp only [State.setRelay, hm, State.writePin_of_hangs hc hf, Progress.last_hangs]

/-- An input's read that hangs answers nothing. -/
theorem State.readInput_of_hangs {s : State} {rest : List CallFate} (hc : s.env.capOk = false)
    (hf : s.env.fates = .hangs :: rest) {id : Nat} (h1 : 1 ≤ id) (h8 : id ≤ 8) :
    s.readInput id = .next { s with hung := true, env := { s.env.tick s.cfg.timeBits with fates := rest } } := by
  simp only [State.readInput, inputMap_of_le h1 h8, State.answerInput, State.readPin_of_hangs hc hf,
    Progress.andThen_hangs, Progress.last_hangs]

/-- A byte whose write succeeds is sent as under `CAP_OK`, and its fate is used up. -/
theorem State.sendByte_of_done {s : State} {rest : List CallFate} (hc : s.env.capOk = false)
    (hf : s.env.fates = .done :: rest) (b : Byte) :
    s.sendByte b = .goes (({ s with env := { s.env with fates := rest } } : State).txWrite b) :=
  State.call_of_cons hc hf _

theorem State.readAdc_of_done {s : State} {rest : List CallFate} (hc : s.env.capOk = false)
    (hf : s.env.fates = .done :: rest) :
    s.readAdc = .goes (s.tick.env.adcRaw % 2 ^ s.cfg.adcBits.val,
      ({ s.tick with env := { s.tick.env with fates := rest } } : State).emit
        (.adcRead s.cfg.adcChannel (s.tick.env.adcRaw % 2 ^ s.cfg.adcBits.val))) :=
  State.call_of_cons (s := s.tick) (c := .done) (rest := rest) ((s.env.tick_capOk _).trans hc)
    ((s.env.tick_fates _).trans hf) _

/-- A string whose first k bytes succeed and whose next one hangs has sent exactly those. -/
theorem State.sendStr_of_done_hangs {s : State} {k : Nat} {t : Str} {rest : List CallFate} (hc : s.env.capOk = false)
    (hf : s.env.fates = List.replicate k .done ++ .hangs :: rest) (hk : k < t.length) :
    s.sendStr t = .hangs { s with
      env := { s.env.heard s.cfg.loopback (t.take k) with fates := rest },
      trace := s.trace ++ txEvents (t.take k) } := by
  induction k generalizing s t with
  | zero =>
    cases t with
    | nil => cases hk
    | cons b t =>
      rw [State.sendStr, State.sendByte_of_hangs hc hf, Progress.andThen_hangs]
      simp [Env.heard, txEvents]
  | succ k ih =>
    cases t with
    | nil => cases hk
    | cons b t =>
      rw [State.sendStr, State.sendByte_of_done hc hf, Progress.andThen_goes, ih]
      · cases hl : s.cfg.loopback <;> simp [State.txWrite, State.emit, Env.echo, Env.heard, txEvents, hl]
      · simpa using hc
      · simp
      · simpa using hk

theorem State.tx_append_txEvents (s : State) (t : Str) :
    ({ s with trace := s.trace ++ txEvents t } : State).tx = s.tx ++ t := by
  simp [State.tx, txEvents]

theorem State.tx_emit_adcRead (s : State) (c n : Nat) : (s.emit (.adcRead c n)).tx = s.tx := by
  simp [State.tx]

/-- A sample that succeeds and k bytes of its response, the next one hanging. -/
theorem State.sampleAnalog_of_done_hangs {s : State} {k : Nat} {rest : List CallFate} (hc : s.env.capOk = false)
    (hf : s.env.fates = List.replicate (k + 1) .done ++ .hangs :: rest) (hk : k ≤ 4) :
    ∃ e, s.sampleAnalog = .hangs { s with
      env := e
      trace := s.trace ++ [.adcRead s.cfg.adcChannel (s.tick.env.adcRaw % 2 ^ s.cfg.adcBits.val)] ++
        txEvents ((fmt4 (s.tick.env.adcRaw % 2 ^ s.cfg.adcBits.val) ++ [charCR]).take k) } := by
  rw [State.sampleAnalog, State.readAdc_of_done hc hf, Progress.andThen_goes]
  exact ⟨_, State.sendStr_of_done_hangs ((s.env.tick_capOk _).trans hc) rfl (Nat.lt_succ_of_le hk)⟩

/-- The first k bytes of the escalation's text, the next one hanging: the phase is not left. -/
theorem State.escSendText_of_done_hangs {s : State} {k : Nat} {rest : List CallFate} (hc : s.env.capOk = false)
    (hf : s.env.fates = List.replicate k .done ++ .hangs :: rest) (hk : k ≤ 11) :
    ∃ e, s.escSendText = .hangs { s with env := e, trace := s.trace ++ txEvents (escalationText.take k) } := by
  rw [State.escSendText, State.sendStr_of_done_hangs (t := escalationText) hc hf (Nat.lt_succ_of_le hk)]
  exact ⟨_, rfl⟩

theorem State.escalate_of_hangs {s : State} {rest : List CallFate} (hc : s.env.capOk = false)
    (hf : s.env.fates = .hangs :: rest) :
    s.escalate = .hangs { s with env := { s.env with fates := rest } } := by
  rw [State.escalate, State.sendByte_of_hangs hc hf, Progress.andThen_hangs]

end Sys2Proof.Machine

open Sys2Proof Sys2Proof.Machine

/-- Settles O11: each id's place from the map's two arms, and `relayMap_inj`. -/
theorem relayMapIsTheBijection : Obligations.RelayMapIsTheBijection := by
  refine ⟨fun id h1 h8 => ?bankA, fun id h9 h11 => ?bankB, fun id h => relayMap_eq_none h,
    fun id id' h1 h11 _ _ h => relayMap_inj ⟨h1, h11⟩ h⟩
  case bankA =>
    exact ⟨_, by simp only [Fin.val_ofNat]; omega, if_pos ⟨h1, h8⟩⟩
  case bankB =>
    exact ⟨_, by simp only [Fin.val_ofNat]; omega, (if_neg (by omega)).trans (if_pos ⟨h9, h11⟩)⟩

/-- Settles O52: `step_addsMapped`, by the cases of a step. -/
theorem onlyMappedPinsAreTouched : Obligations.OnlyMappedPinsAreTouched := fun _ _ h => step_addsMapped h

/-- Settles O53: the step is taken from the empty past, and `step_withPast` puts either past before it. -/
theorem theStreamsAreOnlyWritten : Obligations.TheStreamsAreOnlyWritten := by
  intro s t h
  have hpast (past : List Event) : { s with trace := past } = State.withPast { s with trace := [] } past := by
    simp [State.withPast]
  have hs : s = State.withPast { s with trace := [] } s.trace := hpast s.trace
  rw [hs, step_withPast] at h
  obtain ⟨u, hu, rfl⟩ := outcomeWithPast_eq_next h
  refine ⟨u.trace, rfl, fun past => ?_⟩
  rw [hpast, step_withPast, hu]
  rfl

/-- Settles O12: the state the byte is popped from is the one after the environment's move. -/
theorem stepRunsTheOldestByte : Obligations.StepRunsTheOldestByte := fun _ _ _ hh hs hc hr =>
  step_of_drain_byte hh hs hc hr

/-- Settles O29: both maps are undefined there. -/
theorem numbersOutsideTheMapsAreRefused : Obligations.NumbersOutsideTheMapsAreRefused := by
  refine fun s id => ⟨fun h => ?relay, fun h => ?input⟩
  case relay =>
    have hrefused (on : Bool) : s.setRelay id on = .refused .relayIdUndefined := by
      simp [State.setRelay, relayMap_eq_none h]
    exact ⟨hrefused true, hrefused false⟩
  case input =>
    show s.readInput id = _
    simp [State.readInput, inputMap_eq_none h]

/-- Settles O35: each clause is the lemma of its call that hangs, lifted to the end of the instruction or phase. -/
theorem callThatNeverReturnsStopsTheBlock : Obligations.CallThatNeverReturnsStopsTheBlock := by
  refine fun s => ⟨step_of_hung, fun hc rest => ⟨fun id h1 h11 hf => ?relay, fun id h1 h8 hf => ?input,
    fun k hk hf => ?analog, fun hf => ?fire, fun hh hs hf => ?sample, fun k hk hh hs hf => ?escSend⟩⟩
  case relay => exact ⟨State.setRelay_of_hangs hc hf ⟨h1, h11⟩ true, State.setRelay_of_hangs hc hf ⟨h1, h11⟩ false⟩
  case input => exact State.readInput_of_hangs hc hf h1 h8
  case analog =>
    obtain ⟨e, hx⟩ := State.sampleAnalog_of_done_hangs hc hf hk
    refine ⟨_, congrArg (Host.Outcome.next ∘ Progress.last) hx, rfl, ?_⟩
    exact (State.tx_append_txEvents (s.emit _) _).trans (congrArg (· ++ _) (s.tx_emit_adcRead _ _))
  case fire =>
    exact congrArg (Host.Outcome.next ∘ Progress.last) (State.escalate_of_hangs (s := { s with dbConf := true }) hc hf)
  case sample => exact step_of_sample_hangs hh hs (State.sample_of_hangs hc hf)
  case escSend =>
    obtain ⟨e, hx⟩ := State.escSendText_of_done_hangs hc hf hk
    exact ⟨_, (step_of_escSend hh hs).trans (congrArg (Host.Outcome.next ∘ Progress.last) hx), rfl, hs,
      s.tx_append_txEvents _⟩

end

