-- ==== Sys2Proof/Proofs/Encoding.lean ====
section
/-! The encoding (30_encoding.md): what trimming leaves, the value of a number field, each format of a Command as a
lemma about the decoder, and the case a condition vector selects. -/

namespace Sys2Proof

/-! ## Trimming (R94) -/

theorem not_mem_of_trim_eq_cons {set : List Byte} {s rest : Str} {b : Byte} (h : trim set s = b :: rest) :
    b ∉ set := by
  obtain ⟨t, ht⟩ : trim set s <+: s.dropWhile (inTrimSet set) := List.rdropWhile_prefix _ _
  have hb := List.head_dropWhile_not (inTrimSet set) (l := s) (by simp [← ht, h])
  simpa [← ht, h, inTrimSet] using hb

theorem not_mem_of_trim_eq_concat {set : List Byte} {s front : Str} {b : Byte} (h : trim set s = front ++ [b]) :
    b ∉ set := by
  have hd : (s.dropWhile (inTrimSet set)).rdropWhile (inTrimSet set) = front ++ [b] := h
  have hb := List.rdropWhile_last_not (inTrimSet set) (s.dropWhile (inTrimSet set)) (by simp [hd])
  simpa [hd, inTrimSet] using hb

/-- What trimming removes, written out. -/
theorem takeWhile_append_trim_append_rtakeWhile (set : List Byte) (s : Str) :
    s.takeWhile (inTrimSet set) ++ trim set s ++ (s.dropWhile (inTrimSet set)).rtakeWhile (inTrimSet set) = s := by
  have hback : trim set s ++ (s.dropWhile (inTrimSet set)).rtakeWhile (inTrimSet set) = s.dropWhile (inTrimSet set) :=
    List.rdropWhile_append_rtakeWhile
  rw [List.append_assoc, hback, List.takeWhile_append_dropWhile]

/-! ## Number fields (R101) -/

theorem isDigit_iff {c : Byte} : isDigit c = true ↔ 0x30 ≤ c.toNat ∧ c.toNat ≤ 0x39 := by simp [isDigit]

/-- A first digit is read alike under either `NUMPARSE`. -/
theorem dec2_of_isDigit (g : Config) {c0 : Byte} (c1 : Byte) (h0 : isDigit c0 = true) :
    dec2 g c0 c1 = if isDigit c1 then 10 * digit c0 + digit c1 else digit c0 := by
  have hs : dec2 g c0 c1 = dec2Strict c0 c1 := by
    unfold dec2
    split
    · rfl
    · simp [dec2Atol, h0]
  cases h1 : isDigit c1 <;> simp [hs, dec2Strict, h0, h1]

theorem dec2_of_strictPrefix {g : Config} (hg : g.numParse = .strictPrefix) {c0 : Byte} (c1 : Byte)
    (h0 : isDigit c0 = false) : dec2 g c0 c1 = 0 := by
  simp [dec2, hg, dec2Strict, h0]

theorem dec2_of_cAtol {g : Config} (hg : g.numParse = .cAtol) {c0 : Byte} (c1 : Byte) (h0 : isDigit c0 = false) :
    dec2 g c0 c1 = if (c0 ∈ g.trimSet ∨ c0 = 0x2B#8) ∧ isDigit c1 = true then digit c1 else 0 := by
  simp only [dec2, hg, dec2Atol, h0, inTrimSet, ite_and]
  simp

theorem dec2_of_no_digit (g : Config) {c0 c1 : Byte} (h0 : isDigit c0 = false) (h1 : isDigit c1 = false) :
    dec2 g c0 c1 = 0 := by
  cases hg : g.numParse with
  | strictPrefix => exact dec2_of_strictPrefix hg c1 h0
  | cAtol => simp [dec2_of_cAtol hg c1 h0, h1]

theorem toNat_ofNat_digit {k : Nat} (h : k ≤ 9) : (BitVec.ofNat 8 (0x30 + k)).toNat = 0x30 + k := by
  rw [BitVec.toNat_ofNat]
  omega

theorem isDigit_ofNat {k : Nat} (h : k ≤ 9) : isDigit (BitVec.ofNat 8 (0x30 + k)) = true := by
  rw [isDigit_iff, toNat_ofNat_digit h]
  omega

theorem digit_ofNat {k : Nat} (h : k ≤ 9) : digit (BitVec.ofNat 8 (0x30 + k)) = k := by
  rw [digit, toNat_ofNat_digit h]
  omega

/-- The number field of a canonical text holds its number (R104). -/
theorem dec2_ofNat_digits (g : Config) {n : Nat} (hn : n ≤ 99) :
    dec2 g (BitVec.ofNat 8 (0x30 + n / 10 % 10)) (BitVec.ofNat 8 (0x30 + n % 10)) = n := by
  have htens : n / 10 % 10 ≤ 9 := by omega
  have hunits : n % 10 ≤ 9 := by omega
  rw [dec2_of_isDigit g _ (isDigit_ofNat htens), if_pos (isDigit_ofNat hunits), digit_ofNat htens, digit_ofNat hunits]
  omega

/-! ## The byte classes (R91) -/

theorem decodeByte_of_not_isTerminator {b : Byte} (h : isTerminator b = false) : decodeByte b = .byteData b := by
  obtain ⟨hcr, hlf⟩ := isTerminator_eq_false.mp h
  exact (if_neg hcr).trans (if_neg hlf)

/-! ## The formats of a Command (R95 to R100) -/

theorem isFormatO_iff {c : Str} : isFormatO c = true ↔ (∃ r, c = textOut ++ r) ∧ 8 ≤ c.length := by
  simp [isFormatO, startsWith_iff]

theorem isFormatI_iff {c : Str} : isFormatI c = true ↔ (∃ r, c = textIn ++ r) ∧ 5 ≤ c.length := by
  simp [isFormatI, startsWith_iff]

theorem decodeCommand_of_formatO (g : Config) (a b : Byte) {r : Str} (hr : 2 ≤ r.length) :
    decodeCommand g (textOut ++ a :: b :: r) = decodeOut (textOut ++ a :: b :: r) (dec2 g a b) := by
  have hO : isFormatO (textOut ++ a :: b :: r) = true :=
    isFormatO_iff.mpr ⟨⟨_, rfl⟩, by simpa [textOut] using hr⟩
  have hH : textOut ++ a :: b :: r ≠ textHardcheck := by simp [textOut, textHardcheck]
  rw [decodeCommand, if_neg hH, if_pos hO]
  rfl

theorem decodeCommand_of_formatI (g : Config) (a b : Byte) (r : Str) :
    decodeCommand g (textIn ++ a :: b :: r) = decodeIn (dec2 g a b) := by
  have hI : isFormatI (textIn ++ a :: b :: r) = true := isFormatI_iff.mpr ⟨⟨_, rfl⟩, by simp [textIn]⟩
  have hH : textIn ++ a :: b :: r ≠ textHardcheck := by simp [textIn, textHardcheck]
  have hO : ¬isFormatO (textIn ++ a :: b :: r) = true := by simp [isFormatO_iff, textIn, textOut]
  rw [decodeCommand, if_neg hH, if_neg hO, if_pos hI]
  rfl

theorem decodeCommand_eq_unknown_iff {g : Config} {c : Str} : decodeCommand g c = .unknown c ↔
    c ≠ textHardcheck ∧ isFormatO c = false ∧ isFormatI c = false ∧ c ≠ textAd := by
  constructor
  · intro h
    rcases decodeCommand_cases g c with ⟨-, hd⟩ | ⟨_, -, -, hd | hd⟩ | ⟨_, -, hd⟩ | ⟨_, -, -, hd⟩ | ⟨_, -, hd⟩ | ⟨-, hd⟩ |
      ⟨hH, hO, hI, hA, -⟩
    case inr.inr.inr.inr.inr.inr => exact ⟨hH, hO, hI, hA⟩
    all_goals cases hd.symm.trans h
  · rintro ⟨hH, hO, hI, hA⟩
    simp [decodeCommand, hH, hO, hI, hA]

theorem Instr.wf_unknown_iff {g : Config} {c : Str} : (Instr.unknown c).wf g = true ↔
    properCommand g c = true ∧ c ≠ textHardcheck ∧ isFormatO c = false ∧ isFormatI c = false ∧ c ≠ textAd := by
  simp [Instr.wf, and_assoc]

/-! ## The number and the suffix of format O (R102, R103) -/

theorem decodeOut_of_on {c : Str} {n : Nat} (hn : 1 ≤ n ∧ n ≤ 11) (h : endsWith c textOn = true) :
    decodeOut c n = .outOn n := (if_pos hn).trans (if_pos h)

theorem decodeOut_of_not_on {c : Str} {n : Nat} (hn : 1 ≤ n ∧ n ≤ 11) (h : ¬endsWith c textOn = true) :
    decodeOut c n = .outOff n := (if_pos hn).trans (if_neg h)

theorem decodeOut_of_out_of_range (c : Str) {n : Nat} (hn : ¬(1 ≤ n ∧ n ≤ 11)) : decodeOut c n = .outRange n :=
  if_neg hn

/-- The suffix lies in what follows the number. -/
theorem endsWith_textOn_append_iff (p : Str) {r : Str} (hr : 2 ≤ r.length) :
    endsWith (p ++ r) textOn = true ↔ ∃ q, r = q ++ textOn := by
  rw [endsWith_iff]
  constructor
  · rintro ⟨q, hq⟩
    obtain ⟨q', hq'⟩ : textOn <:+ r := List.suffix_of_suffix_length_le ⟨q, hq.symm⟩ (List.suffix_append p r) hr
    exact ⟨q', hq'.symm⟩
  · rintro ⟨q, rfl⟩
    exact ⟨p ++ q, (List.append_assoc p q textOn).symm⟩

theorem not_endsWith_textOn_append_textOff (p : Str) : ¬endsWith (p ++ textOff) textOn = true := by
  rw [endsWith_iff]
  rintro ⟨q, hq⟩
  simpa [textOff, textOn] using congrArg List.getLast? hq

/-! ## The canonical texts (R104) -/

theorem decodeCommand_textOut_digits2 (g : Config) {n : Nat} (hn : n ≤ 99) {r : Str} (hr : 2 ≤ r.length) :
    decodeCommand g (textOut ++ digits2 n ++ r) = decodeOut (textOut ++ digits2 n ++ r) n := by
  have h := decodeCommand_of_formatO g (BitVec.ofNat 8 (0x30 + n / 10 % 10)) (BitVec.ofNat 8 (0x30 + n % 10)) hr
  rwa [dec2_ofNat_digits g hn] at h

theorem decodeCommand_textIn_digits2 (g : Config) {n : Nat} (hn : n ≤ 99) :
    decodeCommand g (textIn ++ digits2 n) = decodeIn n :=
  (decodeCommand_of_formatI g _ _ []).trans (congrArg decodeIn (dec2_ofNat_digits g hn))

/-! ## The condition vector (R114) -/

/-- The vector of a block that has polled before, by its four conditions. -/
theorem decodePoll_of_conditions (edge pastDebounce pastStable conf : Bool) :
    decodePoll (BitVec.ofBool true ++ BitVec.ofBool edge ++ BitVec.ofBool pastDebounce ++ BitVec.ofBool pastStable ++
        BitVec.ofBool conf) =
      if edge then (if pastDebounce then .dbAccept else .dbReject)
      else if pastStable && !conf then .dbFire else .dbHold := by
  revert edge pastDebounce pastStable conf
  decide

end Sys2Proof

open Sys2Proof Sys2Proof.Machine

/-- Settles O1, by the constructors of the instruction. -/
theorem decodeOfEncodeIsIdentity : Obligations.DecodeOfEncodeIsIdentity := by
  intro g i h
  cases i with
  | byteCr | byteLf | hardcheck | ad | dbFirst | dbAccept | dbReject | dbFire | dbHold => rfl
  | byteData b => exact decodeByte_of_not_isTerminator (by simpa [Instr.wf] using h)
  | outOn n =>
    have hn : 1 ≤ n ∧ n ≤ 11 := of_decide_eq_true h
    exact (decodeCommand_textOut_digits2 g (by omega) (by decide)).trans
      (decodeOut_of_on hn (endsWith_iff.mpr ⟨_, rfl⟩))
  | outOff n =>
    have hn : 1 ≤ n ∧ n ≤ 11 := of_decide_eq_true h
    exact (decodeCommand_textOut_digits2 g (by omega) (by decide)).trans
      (decodeOut_of_not_on hn (not_endsWith_textOn_append_textOff _))
  | outRange n =>
    have hn : n = 0 ∨ 12 ≤ n ∧ n ≤ 99 := of_decide_eq_true h
    exact (decodeCommand_textOut_digits2 g (by omega) (by decide)).trans
      (decodeOut_of_out_of_range _ (by omega))
  | inRead n =>
    have hn : 1 ≤ n ∧ n ≤ 8 := of_decide_eq_true h
    exact (decodeCommand_textIn_digits2 g (by omega)).trans (if_pos hn)
  | inRange n =>
    have hn : n = 0 ∨ 9 ≤ n ∧ n ≤ 99 := of_decide_eq_true h
    exact (decodeCommand_textIn_digits2 g (by omega)).trans (if_neg (by omega))
  | unknown c =>
    obtain ⟨-, hnone⟩ := Instr.wf_unknown_iff.mp h
    exact decodeCommand_eq_unknown_iff.mpr hnone

/-- Settles O2: what each level can answer, with its number in range. -/
theorem properCodeDecodesWellFormed : Obligations.ProperCodeDecodesWellFormed := by
  intro g c h
  cases c with
  | byte b =>
    show (decodeByte b).wf g = true
    rcases decodeByte_cases b with ⟨-, hd⟩ | ⟨-, hd⟩ | ⟨hb, hd⟩ <;> rw [hd]
    · rfl
    · rfl
    · simp [Instr.wf, hb]
  | command c =>
    have hc : properCommand g c = true := h
    show (decodeCommand g c).wf g = true
    rcases decodeCommand_cases g c with ⟨-, hd⟩ | ⟨n, h1, h11, hd | hd⟩ | ⟨n, hn, hd⟩ | ⟨n, h1, h8, hd⟩ | ⟨n, hn, hd⟩ |
      ⟨-, hd⟩ | ⟨hH, hO, hI, hA, hd⟩ <;> rw [hd]
    · rfl
    · exact decide_eq_true ⟨h1, h11⟩
    · exact decide_eq_true ⟨h1, h11⟩
    · exact decide_eq_true hn
    · exact decide_eq_true ⟨h1, h8⟩
    · exact decide_eq_true hn
    · rfl
    · exact Instr.wf_unknown_iff.mpr ⟨hc, hH, hO, hI, hA⟩
  | poll ev =>
    show (decodePoll ev).wf g = true
    rcases decodePoll_cases ev with hd | hd | hd | hd | hd <;> rw [hd] <;> rfl

/-- Settles O4, by which of the two bytes is a digit. -/
theorem numberFieldValue : Obligations.NumberFieldValue := by
  intro g c0 c1
  simp only [← isDigit_iff, Bool.not_eq_true]
  refine ⟨fun h0 h1 => ?bothDigits, fun h0 h1 => dec2_of_no_digit g h0 h1, fun h0 h1 => ?digitFirst,
    fun hg h0 => dec2_of_strictPrefix hg c1 h0, fun hg h0 h1 => ?digitLast⟩
  case bothDigits => rw [dec2_of_isDigit g c1 h0, if_pos h1, digit, digit]
  case digitFirst => rw [dec2_of_isDigit g c1 h0, if_neg (by simp [h1]), digit]
  case digitLast => simp only [dec2_of_cAtol hg c1 h0, h1, and_true, digit]

/-- Settles O5: the two runs removed are those of `takeWhile` from either end. -/
theorem trimKeepsExactlyTheMiddle : Obligations.TrimKeepsExactlyTheMiddle := by
  refine fun set s => ⟨_, _, (takeWhile_append_trim_append_rtakeWhile set s).symm, fun b hb => ?front, fun b hb => ?back,
    fun b rest h => not_mem_of_trim_eq_cons h, fun front b h => not_mem_of_trim_eq_concat h⟩
  case front => exact of_decide_eq_true (List.mem_takeWhile_imp (p := inTrimSet set) hb)
  case back => exact of_decide_eq_true (List.mem_rtakeWhile_imp (p := inTrimSet set) hb)

/-- Settles O6: format O, with the suffix sought behind the number. -/
theorem outTextsDecode : Obligations.OutTextsDecode := by
  intro g a b r hr
  have hdec := decodeCommand_of_formatO g a b hr
  have hon := endsWith_textOn_append_iff (textOut ++ [a, b]) hr
  refine ⟨fun hn => ?range, fun h1 h11 hq => ?on, fun h1 h11 hq => ?off⟩
  case range => exact hdec.trans (decodeOut_of_out_of_range _ hn)
  case on => exact hdec.trans (decodeOut_of_on ⟨h1, h11⟩ (hon.mpr hq))
  case off => exact hdec.trans (decodeOut_of_not_on ⟨h1, h11⟩ (hon.not.mpr hq))

/-- Settles O8: the decoder's own formats H, O, I and A, written out. -/
theorem unknownIsWhatNoFormatMatches : Obligations.UnknownIsWhatNoFormatMatches := by
  intro g c
  rw [decodeCommand_eq_unknown_iff, ← Bool.not_eq_true, ← Bool.not_eq_true, isFormatO_iff, isFormatI_iff]
  rfl

/-- Settles O9: the digits are the quotients modulo ten. -/
theorem fourDigitsAreTheNumber : Obligations.FourDigitsAreTheNumber := by
  intro n hn
  refine ⟨n / 1000 % 10, n / 100 % 10, n / 10 % 10, n / 1 % 10, ?_, ?_, ?_, ?_, ?_, rfl⟩ <;> omega

/-- Settles O18: the vector's five conditions, one by one. -/
theorem conditionVectorSelectsTheCase : Obligations.ConditionVectorSelectsTheCase := by
  intro s
  cases hi : s.dbInit with
  | false => simp [State.ev, hi, decodePoll]
  | true =>
    rw [State.ev, if_pos hi, decodePoll_of_conditions]
    simp [State.pastDebounce, State.pastStable]

/-- Settles O3: a byte that is no terminator is data. -/
theorem byteClassesDecode : Obligations.ByteClassesDecode :=
  ⟨rfl, rfl, fun _ hcr hlf => decodeByte_of_not_isTerminator (isTerminator_eq_false.mpr ⟨hcr, hlf⟩)⟩

/-- Settles O7: format I, whose number alone selects. -/
theorem inTextsDecode : Obligations.InTextsDecode := fun g a b r =>
  have hdec := decodeCommand_of_formatI g a b r
  ⟨fun hn => hdec.trans (if_pos hn), fun hn => hdec.trans (if_neg hn)⟩

/-- Settles O10: sixteen words, each run through the decoder. -/
theorem wordsOfTheSpecDecode : Obligations.WordsOfTheSpecDecode := by
  unfold Obligations.WordsOfTheSpecDecode
  decide

/-- Settles O21: the handler is the one log event. -/
theorem hardcheckOnlyLogs : Obligations.HardcheckOnlyLogs := fun _ => rfl

end

