-- ==== Sys2Proof/Proofs/LineAssembler.lean ====
section
/-! The line assembler (40_line_assembler.md): each case of `feed`, what the step of an arriving byte does, and a whole
line by induction on its bytes. -/

namespace Sys2Proof.Machine

/-! ## The cases of `feed` (R130) -/

theorem State.feedTerminator_of_line {s : State} (ho : s.lbOvf = false) (hl : s.lb ≠ []) :
    s.feedTerminator = { s with lb := [], cmd := some (trim s.cfg.trimSet s.lb) } := by
  simp [State.feedTerminator, ho, List.length_pos_iff.mpr hl]

theorem State.feedTerminator_of_empty {s : State} (ho : s.lbOvf = false) (hl : s.lb = []) :
    s.feedTerminator = { s with cmd := none } := by
  simp [State.feedTerminator, ho, hl]

theorem State.feedTerminator_of_overflow {s : State} (ho : s.lbOvf = true) :
    s.feedTerminator =
      { s with lb := [], lbOvf := false, cmd := none, trace := s.trace ++ [.log .lineOverflow 0] } :=
  if_pos ho

theorem State.feedData_of_room {s : State} (hroom : ∀ m, s.cfg.lineMax = some m → s.lb.length < m) (b : Byte) :
    s.feedData b = { s with lb := s.lb ++ [b], cmd := none } :=
  if_neg (Bool.eq_false_iff.mp (State.lbFull_eq_false.mpr hroom))

theorem State.feedData_of_bound {s : State} (hfull : s.cfg.lineMax = some s.lb.length) (b : Byte) :
    s.feedData b = { s with lbOvf := true, cmd := none } :=
  if_pos (State.lbFull_eq_true.mpr ⟨_, hfull, le_rfl⟩)

/-- CR and LF run the same arm (R132). -/
theorem exec_decodeByte_of_isTerminator {b : Byte} (h : isTerminator b = true) (s : State) :
    exec (decodeByte b) s = .next s.feedTerminator := by
  rcases isTerminator_eq_true.mp h with rfl | rfl <;> rfl

/-! ## One step a byte -/

/-- In the drain phase with nothing in transit and no overflow: the next step feeds a byte, if one waits. -/
structure State.Feeding (s : State) : Prop where
  hung : s.hung = false
  seq : s.seq = .drain
  cmd : s.cmd = none
  lbOvf : s.lbOvf = false

theorem step_of_waiting_byte {s : State} {b : Byte} {rest : Str} (hs : s.Feeding) (hrx : s.env.rx = b :: rest) :
    ∃ e more, e.rx = rest ++ more ∧
      step s = exec (decodeByte b) { s with env := e, trace := s.trace ++ [.rxPop b] } := by
  obtain ⟨more, hmore⟩ := s.env.tick_rx s.cfg.timeBits
  have hhead : s.tick.env.rx = b :: (rest ++ more) := by rw [State.tick_env, hmore, hrx, List.cons_append]
  exact ⟨_, more, rfl, step_of_drain_byte hs.hung hs.seq hs.cmd hhead⟩

theorem step_of_waiting_data {s : State} {b : Byte} {rest : Str} (hs : s.Feeding) (hrx : s.env.rx = b :: rest)
    (hb : isTerminator b = false) (hroom : ∀ m, s.cfg.lineMax = some m → s.lb.length < m) :
    ∃ e more, e.rx = rest ++ more ∧
      step s = .next { s with lb := s.lb ++ [b], cmd := none, env := e, trace := s.trace ++ [.rxPop b] } := by
  obtain ⟨e, more, he, hstep⟩ := step_of_waiting_byte hs hrx
  rw [decodeByte_of_not_isTerminator hb] at hstep
  have hfed := State.feedData_of_room (s := { s with env := e, trace := s.trace ++ [.rxPop b] }) hroom b
  exact ⟨e, more, he, hstep.trans (congrArg Host.Outcome.next hfed)⟩

theorem step_of_waiting_terminator {s : State} {b : Byte} {rest : Str} (hs : s.Feeding) (hrx : s.env.rx = b :: rest)
    (hb : isTerminator b = true) (hl : s.lb ≠ []) :
    ∃ e more, e.rx = rest ++ more ∧
      step s = .next { s with
        lb := [], cmd := some (trim s.cfg.trimSet s.lb), env := e, trace := s.trace ++ [.rxPop b] } := by
  obtain ⟨e, more, he, hstep⟩ := step_of_waiting_byte hs hrx
  rw [exec_decodeByte_of_isTerminator hb] at hstep
  exact ⟨e, more, he, hstep.trans (congrArg Host.Outcome.next (State.feedTerminator_of_line hs.lbOvf hl))⟩

/-! ## A whole line -/

theorem run_succ_of_step {s t : State} (h : step s = .next t) (k : Nat) :
    Host.Core.run Sys2Proof.core (k + 1) s = Host.Core.run Sys2Proof.core k t := by
  have hcore : Sys2Proof.core.step s = .next t := h
  simp only [Host.Core.run, hcore]

/-- The line may have begun before: what the buffer holds is its front, and the bound counts both parts. -/
theorem run_of_waiting_line {s : State} {line rest : Str} {b : Byte} (hs : s.Feeding)
    (hrx : s.env.rx = line ++ b :: rest) (hne : s.lb ++ line ≠ []) (hline : ∀ x ∈ line, isTerminator x = false)
    (hb : isTerminator b = true) (hmax : ∀ m, s.cfg.lineMax = some m → (s.lb ++ line).length ≤ m) :
    ∃ e more, e.rx = rest ++ more ∧ Host.Core.run Sys2Proof.core (line.length + 1) s = .next { s with
      lb := [], cmd := some (trim s.cfg.trimSet (s.lb ++ line)), env := e,
      trace := s.trace ++ (line ++ [b]).map .rxPop } := by
  induction line generalizing s rest with
  | nil =>
    rw [List.append_nil] at hne ⊢
    obtain ⟨e, more, he, hstep⟩ := step_of_waiting_terminator hs hrx hb hne
    exact ⟨e, more, he, run_succ_of_step hstep 0⟩
  | cons x line ih =>
    obtain ⟨hx, hline⟩ := List.forall_mem_cons.mp hline
    have hroom (m : Nat) (hm : s.cfg.lineMax = some m) : s.lb.length < m := by
      have := hmax m hm
      simp only [List.length_append, List.length_cons] at this
      omega
    obtain ⟨e, more, he, hstep⟩ := step_of_waiting_data hs hrx hx hroom
    obtain ⟨e', more', he', hrun⟩ := ih (rest := rest ++ more)
      (s := { s with lb := s.lb ++ [x], cmd := none, env := e, trace := s.trace ++ [.rxPop x] })
      ⟨hs.hung, hs.seq, rfl, hs.lbOvf⟩ (by simp [he]) (by simp) hline (by simpa using hmax)
    refine ⟨e', more ++ more', by rw [he', List.append_assoc], ?_⟩
    rw [List.length_cons, run_succ_of_step hstep, hrun]
    simp

end Sys2Proof.Machine

open Sys2Proof Sys2Proof.Machine

/-- Settles O57: `run_of_waiting_line` from an empty buffer. -/
theorem aWholeLineBecomesOneCommand : Obligations.AWholeLineBecomesOneCommand := by
  intro s line rest b hh hs hc hlb ho hrx hne hline hb hmax
  obtain ⟨e, more, he, hrun⟩ := run_of_waiting_line ⟨hh, hs, hc, ho⟩ (by simpa using hrx) (by simpa [hlb] using hne)
    (fun x hx => isTerminator_eq_false.mpr (hline x hx)) (isTerminator_eq_true.mpr hb) (by simpa [hlb] using hmax)
  exact ⟨_, more, hrun, he, by simp [hlb]⟩

/-- Settles O19: both instructions are the terminator arm, whose three cases these are. -/
theorem terminatorEndsTheLine : Obligations.TerminatorEndsTheLine := by
  intro s i hi
  have hexec : exec i s = .next s.feedTerminator := by rcases hi with rfl | rfl <;> rfl
  rw [hexec]
  exact ⟨fun ho hl => congrArg _ (State.feedTerminator_of_line ho hl),
    fun ho hl => congrArg _ (State.feedTerminator_of_empty ho hl),
    fun ho => congrArg _ (State.feedTerminator_of_overflow ho)⟩

/-- Settles O20: the data arm with room and at the bound. -/
theorem dataByteIsAppendedOrDropped : Obligations.DataByteIsAppendedOrDropped := fun _ b =>
  ⟨fun hroom => congrArg Host.Outcome.next (State.feedData_of_room hroom b),
    fun hfull => congrArg Host.Outcome.next (State.feedData_of_bound hfull b)⟩

end

