-- ==== Sys2Proof/Proofs/CommandDispatcher.lean ====
section
/-! The command dispatcher (41_command_dispatcher.md): what each handler does under `CAP_OK`, and the decoded Command
against the dispatch of R150. -/

namespace Sys2Proof.Machine

/-! ## The relay controller (42_relay_controller.md) -/

/-- The place of a relay within the range (20_memory.md R62). -/
theorem relayMap_of_le {id : Nat} (h1 : 1 ≤ id) (h11 : id ≤ 11) :
    ∃ k i, relayMap id = some (k, i) ∧ k = (if id ≤ 8 then .outA else .outB) ∧
      i.val = if id ≤ 8 then id - 1 else id - 9 := by
  obtain ⟨⟨k, i⟩, hm⟩ := Option.isSome_iff_exists.mp (relayMap_isSome.mpr ⟨h1, h11⟩)
  refine ⟨k, i, hm, ?_⟩
  rcases relayMap_eq_some hm with ⟨-, h8, hk, hi⟩ | ⟨h9, -, hk, hi⟩
  · rw [if_pos h8, if_pos h8]
    exact ⟨hk, hi⟩
  · rw [if_neg (by omega), if_neg (by omega)]
    exact ⟨hk, hi⟩

theorem State.setRelay_of_capOk {s : State} {id : Nat} {k : OutBank} {i : BitIx} (hc : s.env.capOk = true)
    (hm : relayMap id = some (k, i)) (on : Bool) :
    s.setRelay id on = .next ((s.setLatch k i (relayLevel on)).gpioWrite k i (relayLevel on)) := by
  simp only [State.setRelay, hm, State.writePin_of_capOk hc, Progress.last_goes]

/-- A write that succeeds touches the two output registers, the two latches and the trace (20_memory.md R66). -/
theorem State.setLatch_gpioWrite_frame {s t : State} {k : OutBank} {i : BitIx} {l : Level}
    (ht : t = (s.setLatch k i l).gpioWrite k i l) :
    t = { s with
      outA := t.outA, outB := t.outB,
      env := { s.env with latchA := t.env.latchA, latchB := t.env.latchB },
      trace := s.trace ++ [.gpioWrite k i l] } := by
  subst ht
  cases k <;> rfl

/-- The effect of OUT_ON and OUT_OFF alike (R180, R182): the level alone differs. -/
theorem State.setRelay_effect {s : State} {id : Nat} (h1 : 1 ≤ id) (h11 : id ≤ 11) (hc : s.env.capOk = true)
    (on : Bool) : ∃ (t : State) (k : OutBank) (i : BitIx),
      k = (if id ≤ 8 then .outA else .outB) ∧ i.val = (if id ≤ 8 then id - 1 else id - 9) ∧
      s.setRelay id on = .next t ∧
      (∀ k' i', t.outLevel k' i' = if k' = k ∧ i' = i then relayLevel on else s.outLevel k' i') ∧
      (∀ k' i', t.env.latchLevel k' i' = if k' = k ∧ i' = i then relayLevel on else s.env.latchLevel k' i') ∧
      t = { s with
        outA := t.outA, outB := t.outB,
        env := { s.env with latchA := t.env.latchA, latchB := t.env.latchB },
        trace := s.trace ++ [.gpioWrite k i (relayLevel on)] } := by
  obtain ⟨k, i, hm, hk, hi⟩ := relayMap_of_le h1 h11
  refine ⟨_, k, i, hk, hi, State.setRelay_of_capOk hc hm on, fun k' i' => ?register, fun k' i' => ?latch,
    State.setLatch_gpioWrite_frame rfl⟩
  case register => rw [State.outLevel_gpioWrite, State.outLevel_setLatch]
  case latch => rw [State.gpioWrite_env, State.setLatch_env, Env.latchLevel_setLatch]

/-! ## The input reader (43_input_reader.md) -/

/-- One read, the response, and the log event last (R195). -/
theorem State.answerInput_of_capOk {s : State} (hc : s.env.capOk = true) (id : Nat) (k : InBank) (i : BitIx)
    {l : Level} (hl : l = bankLevel (s.tick.env.pins k) i) :
    s.answerInput id k i = .goes { s with
      env := s.tick.env.heard s.cfg.loopback (inputResponse l),
      trace := s.trace ++ [.gpioRead k i l] ++ txEvents (inputResponse l) ++
        [.log .inputState (inputLogArg id l)] } := by
  have hread : (s.tick.emit (.gpioRead k i l)).env.capOk = true := (s.env.tick_capOk _).trans hc
  simp only [State.answerInput, State.readPin_of_capOk hc, ← hl, Progress.andThen_goes, State.sendStr_of_capOk hread]
  rfl

theorem State.readInput_of_capOk {s : State} {id : Nat} {k : InBank} {i : BitIx} (hc : s.env.capOk = true)
    (hm : inputMap id = some (k, i)) {l : Level} (hl : l = bankLevel (s.tick.env.pins k) i) :
    s.readInput id = .next { s with
      env := s.tick.env.heard s.cfg.loopback (inputResponse l),
      trace := s.trace ++ [.gpioRead k i l] ++ txEvents (inputResponse l) ++
        [.log .inputState (inputLogArg id l)] } := by
  simp only [State.readInput, hm, State.answerInput_of_capOk hc id k i hl, Progress.last_goes]

/-- The response, byte by byte (R196). -/
theorem inputResponse_eq (l : Level) : inputResponse l = match l with
    | .low => [0x6F, 0x6E, 0x0D]
    | .high => [0x6F, 0x66, 0x66, 0x0D] := by
  cases l <;> rfl

/-- Bit 7 lies above every number of an input (R197). -/
theorem inputLogArg_toNat {id : Nat} (hid : id < 128) (l : Level) :
    (inputLogArg id l).toNat = match l with
      | .low => 128 + id
      | .high => id := by
  have hmod : id % 2 ^ 8 = id := Nat.mod_eq_of_lt (by omega)
  cases l with
  | high => exact hmod
  | low =>
    calc (inputLogArg id .low).toNat
        = 128 ||| id % 2 ^ 8 := Nat.or_comm _ _
      _ = 128 + id := by rw [hmod]; exact (Nat.two_pow_add_eq_or_of_lt (i := 7) hid 1).symm

/-- What a read and its response are worth once the log is dropped (R197). -/
theorem withoutLog_response (past : List Event) (k : InBank) (i : BitIx) (l : Level) (text : Str) (c : LogCode)
    (a : Byte) : withoutLog (past ++ [.gpioRead k i l] ++ txEvents text ++ [.log c a]) =
      withoutLog past ++ [.gpioRead k i l] ++ txEvents text := by
  simp [withoutLog, txEvents]

theorem State.log_response {s t : State} {k : InBank} {i : BitIx} {l : Level} {text : Str} {c : LogCode} {a : Byte}
    (ht : t.trace = s.trace ++ [.gpioRead k i l] ++ txEvents text ++ [.log c a]) : t.log = s.log ++ [(c, a)] := by
  simp [State.log, ht, txEvents]

/-! ## The analog sampler (44_analog_sampler.md) -/

theorem State.sampleAnalog_of_capOk {s : State} (hc : s.env.capOk = true) {n : Nat}
    (hn : n = s.tick.env.adcRaw % 2 ^ s.cfg.adcBits.val) :
    s.sampleAnalog = .goes { s with
      env := s.tick.env.heard s.cfg.loopback (fmt4 n ++ [charCR]),
      trace := s.trace ++ [.adcRead s.cfg.adcChannel n] ++ txEvents (fmt4 n ++ [charCR]) } := by
  have hread : (s.tick.emit (.adcRead s.cfg.adcChannel n)).env.capOk = true := (s.env.tick_capOk _).trans hc
  simp only [State.sampleAnalog, State.readAdc_of_capOk hc, ← hn, Progress.andThen_goes, State.sendStr_of_capOk hread]
  rfl

/-- The response, byte by byte (R212). -/
theorem fmt4_append_charCR (n : Nat) : fmt4 n ++ [charCR] =
    [BitVec.ofNat 8 (0x30 + n / 1000 % 10), BitVec.ofNat 8 (0x30 + n / 100 % 10), BitVec.ofNat 8 (0x30 + n / 10 % 10),
      BitVec.ofNat 8 (0x30 + n % 10), 0x0D] := by
  simp [fmt4, decimalByte, charCR]

/-- A count of at most 13 bits (R213). -/
theorem adcCount_le (c : Config) (raw : Nat) : raw % 2 ^ c.adcBits.val ≤ 8191 := by
  have hlt : raw % 2 ^ c.adcBits.val < 2 ^ c.adcBits.val := Nat.mod_lt _ (Nat.two_pow_pos _)
  have hle : 2 ^ c.adcBits.val ≤ 2 ^ 13 := Nat.pow_le_pow_right (by decide) (Nat.le_of_lt_succ c.adcBits.isLt)
  omega

/-! ## The dispatch (41_command_dispatcher.md R150) -/

theorem exec_decodeOut (c : Str) (n : Nat) (s : State) :
    exec (decodeOut c n) s =
      if 1 ≤ n ∧ n ≤ 11 then (if endsWith c textOn then s.setRelay n true else s.setRelay n false)
      else .next (s.logEvent .outRange (BitVec.ofNat 8 n)) := by
  simp only [decodeOut, apply_ite (exec · s)]
  rfl

theorem exec_decodeIn (n : Nat) (s : State) :
    exec (decodeIn n) s = if 1 ≤ n ∧ n ≤ 8 then s.readInput n else .next s := by
  simp only [decodeIn, apply_ite (exec · s)]
  rfl

end Sys2Proof.Machine

open Sys2Proof Sys2Proof.Machine

/-- Settles O22: `State.setRelay_effect` switching on, whose level is LOW. -/
theorem outOnWritesLowToItsRelay : Obligations.OutOnWritesLowToItsRelay := fun _ _ h1 h11 hc =>
  State.setRelay_effect h1 h11 hc true

/-- Settles O23: `State.setRelay_effect` switching off, whose level is HIGH. -/
theorem outOffWritesHighToItsRelay : Obligations.OutOffWritesHighToItsRelay := fun _ _ h1 h11 hc =>
  State.setRelay_effect h1 h11 hc false

/-- Settles O25: the read and the response of `State.readInput_of_capOk`, with and without the log event. -/
theorem inAnswersTheLevel : Obligations.InAnswersTheLevel := by
  intro s id h1 h8 hc
  have hbit : (Fin.ofNat 8 (id - 1)).val = id - 1 := Nat.mod_eq_of_lt (by omega)
  exact ⟨_, Fin.ofNat 8 (id - 1), _, _, inputLogArg id _, hbit, rfl, inputResponse_eq _,
    inputLogArg_toNat (by omega) _, State.readInput_of_capOk hc (inputMap_of_le h1 h8) rfl, rfl,
    withoutLog_response .., State.log_response rfl⟩

/-- Settles O27: the sample and the response of `State.sampleAnalog_of_capOk`. -/
theorem adTransmitsTheRawCount : Obligations.AdTransmitsTheRawCount := fun s hc =>
  have hexec := congrArg (fun p : Progress State => Host.Outcome.next p.last) (State.sampleAnalog_of_capOk hc rfl)
  ⟨_, _, rfl, adcCount_le s.cfg _, fmt4_append_charCR _, hexec⟩

/-- Settles O58: in each of the classes H, O, I, A and U the two sides do the same. -/
theorem decodedCommandIsDispatch : Obligations.DecodedCommandIsDispatch := by
  intro s c
  have hO : (startsWith c textOut = true ∧ 8 ≤ c.length) ↔ isFormatO c = true := by simp [isFormatO]
  have hI : (startsWith c textIn = true ∧ 5 ≤ c.length) ↔ isFormatI c = true := by simp [isFormatI]
  simp only [decodeCommand, Pseudocode.dispatch, ge_iff_le, hO, hI, ← exec_decodeOut, ← exec_decodeIn]
  split_ifs <;> rfl

/-- Settles O24: the handler is the one log event. -/
theorem outRangeOnlyLogs : Obligations.OutRangeOnlyLogs := fun _ _ => rfl

/-- Settles O26: the handler is the identity. -/
theorem inRangeDoesNothing : Obligations.InRangeDoesNothing := fun _ _ => rfl

/-- Settles O28: the handler is the one log event. -/
theorem unknownOnlyLogs : Obligations.UnknownOnlyLogs := fun _ _ => rfl

end

section
/-! The relay controller (42_relay_controller.md): which instructions and moves leave the output registers alone, what a
change of an output bit comes from, and a write repeated. -/

namespace Sys2Proof.Machine

/-! ## What leaves every output bit as it is -/

section
variable (s : State) (k : OutBank) (i : BitIx)

theorem State.outLevel_feedTerminator : s.feedTerminator.outLevel k i = s.outLevel k i := by
  rcases s.feedTerminator_cases with ⟨-, h⟩ | ⟨-, -, h⟩ | ⟨-, -, h⟩ <;> rw [h] <;> rfl

theorem State.outLevel_feedData (b : Byte) : (s.feedData b).outLevel k i = s.outLevel k i := by
  rcases s.feedData_cases b with ⟨-, h⟩ | ⟨-, h⟩ <;> rw [h] <;> rfl

theorem State.outLevel_sampleAnalog : s.sampleAnalog.last.outLevel k i = s.outLevel k i := by
  obtain ⟨e, new, hung, -, h, -⟩ := s.sampleAnalog_cases
  rw [h]
  rfl

theorem State.outLevel_escalate : s.escalate.last.outLevel k i = s.outLevel k i := by
  rcases s.escalate_cases with ⟨e, -, h⟩ | ⟨e, -, h⟩ <;> rw [h] <;> rfl

theorem State.outLevel_escWaitPoll (hs : s.seq = .escWait) : s.escWaitPoll.outLevel k i = s.outLevel k i := by
  rw [s.escWaitPoll_eq hs]
  rfl

theorem State.outLevel_escSendText : s.escSendText.last.outLevel k i = s.outLevel k i := by
  rcases s.escSendText_cases with ⟨e, -, h⟩ | ⟨e, n, -, h⟩ <;> rw [h] <;> rfl

end

section
variable {s t : State} {k : OutBank} {j : BitIx}

theorem State.outLevel_of_readInput {id : Nat} (h : s.readInput id = .next t) : t.outLevel k j = s.outLevel k j := by
  obtain ⟨k', i, e, new, hung, -, -, rfl, -⟩ := State.readInput_eq_next h
  rfl

theorem State.outLevel_of_sample_goes (h : s.sample = .goes t) : t.outLevel k j = s.outLevel k j := by
  obtain ⟨e, l, -, rfl⟩ := State.sample_eq_goes h
  rfl

theorem State.outLevel_of_sample_hangs (h : s.sample = .hangs t) : t.outLevel k j = s.outLevel k j := by
  obtain ⟨e, -, rfl⟩ := State.sample_eq_hangs h
  rfl

/-- Fetching an instruction and its operands writes no output. -/
theorem State.outLevel_of_fetch_run {i : Instr} (h : s.fetch = .run i t) : t.outLevel k j = s.outLevel k j := by
  rcases s.fetch_cases with ⟨-, hf⟩ | ⟨-, -, c, -, hf⟩ | ⟨-, -, -, b, rest, -, hf⟩ | ⟨-, -, -, -, hf⟩ |
    ⟨-, -, u, hu, hf⟩ | ⟨-, -, u, -, hf⟩ | ⟨-, -, hf⟩ | ⟨-, -, hf⟩ <;> cases hf.symm.trans h
  · rfl
  · rfl
  · exact State.outLevel_of_sample_goes hu

/-- The sequencer's own moves write no output. -/
theorem State.outLevel_of_fetch_move (h : s.fetch = .move t) : t.outLevel k j = s.outLevel k j := by
  rcases s.fetch_cases with ⟨-, hf⟩ | ⟨-, -, c, -, hf⟩ | ⟨-, -, -, b, rest, -, hf⟩ | ⟨-, -, -, -, hf⟩ |
    ⟨-, -, u, -, hf⟩ | ⟨-, -, u, hu, hf⟩ | ⟨-, hs, hf⟩ | ⟨-, -, hf⟩ <;> cases hf.symm.trans h
  · rfl
  · exact State.outLevel_of_sample_hangs (t := u) hu
  · exact s.outLevel_escWaitPoll k j hs
  · exact s.outLevel_escSendText k j

/-! ## Where a change of an output bit comes from -/

/-- `setRelay` changes the bit of its relay only, and to its level, even where the write fails or hangs. -/
theorem State.setRelay_changes {id : Nat} {on : Bool} (h : s.setRelay id on = .next t)
    (hne : t.outLevel k j ≠ s.outLevel k j) : relayMap id = some (k, j) ∧ t.outLevel k j = relayLevel on := by
  obtain ⟨k', i, e, hm, -, ht⟩ := State.setRelay_eq_next h
  have hlevel : t.outLevel k j = (if k = k' ∧ j = i then relayLevel on else s.outLevel k j) ∨
      t.outLevel k j = s.outLevel k j := by
    rcases ht with rfl | ⟨-, rfl⟩ | rfl
    · exact .inl (State.outLevel_gpioWrite _ _ _ _ _ _)
    · exact .inl (State.outLevel_gpioWrite _ _ _ _ _ _)
    · exact .inr rfl
  have hwritten := hlevel.resolve_right hne
  by_cases hbit : k = k' ∧ j = i
  · obtain ⟨rfl, rfl⟩ := hbit
    exact ⟨hm, by simpa using hwritten⟩
  · exact absurd (hwritten.trans (if_neg hbit)) hne

/-- Of all instructions only the two relay commands change an output bit (R185, R186). -/
theorem exec_changes {i : Instr} (h : exec i s = .next t) (hne : t.outLevel k j ≠ s.outLevel k j) :
    ∃ id, relayMap id = some (k, j) ∧
      ((i = .outOn id ∧ t.outLevel k j = .low) ∨ (i = .outOff id ∧ t.outLevel k j = .high)) := by
  cases i with
  | outOn id =>
    obtain ⟨hm, hl⟩ := State.setRelay_changes (on := true) h hne
    exact ⟨id, hm, .inl ⟨rfl, hl⟩⟩
  | outOff id =>
    obtain ⟨hm, hl⟩ := State.setRelay_changes (on := false) h hne
    exact ⟨id, hm, .inr ⟨rfl, hl⟩⟩
  | inRead id => exact absurd (State.outLevel_of_readInput h) hne
  | byteCr | byteLf =>
    cases h
    exact absurd (s.outLevel_feedTerminator k j) hne
  | byteData b =>
    cases h
    exact absurd (s.outLevel_feedData k j b) hne
  | ad =>
    cases h
    exact absurd (s.outLevel_sampleAnalog k j) hne
  | dbFire =>
    cases h
    exact absurd (State.outLevel_escalate { s with dbConf := true } k j) hne
  | hardcheck | outRange | inRange | unknown | dbFirst | dbAccept | dbReject | dbHold =>
    cases h
    exact absurd rfl hne

theorem step_changes (h : step s = .next t) (hne : t.outLevel k j ≠ s.outLevel k j) :
    ∃ id, relayMap id = some (k, j) ∧
      ((s.fetchedInstr = [.outOn id] ∧ t.outLevel k j = .low) ∨
       (s.fetchedInstr = [.outOff id] ∧ t.outLevel k j = .high)) := by
  cases hf : s.fetch with
  | run i u =>
    have hexec : exec i u = .next t := by simpa only [step, hf] using h
    have hinstr : s.fetchedInstr = [i] := by simp only [State.fetchedInstr, hf]
    rw [← State.outLevel_of_fetch_run hf] at hne
    simpa only [hinstr, List.cons.injEq, and_true] using exec_changes hexec hne
  | move u =>
    have hmove : u = t := by simpa only [step, hf, Host.Outcome.next.injEq] using h
    exact absurd (State.outLevel_of_fetch_move (hmove ▸ hf)) hne
  | stuck => simp [step, hf] at h

end

/-! ## The same write again (R183) -/

@[simp] theorem setBankLevel_setBankLevel (v : BitVec 8) (i : BitIx) (l : Level) :
    setBankLevel (setBankLevel v i l) i l = setBankLevel v i l :=
  bank_ext fun j => by
    simp only [bankLevel_setBankLevel]
    split <;> rfl

/-- A write that succeeds, done again, finds register and latch at its level, and is only recorded. -/
theorem State.setLatch_gpioWrite_again {s t : State} {k : OutBank} {i : BitIx} {l : Level}
    (ht : t = (s.setLatch k i l).gpioWrite k i l) :
    (t.setLatch k i l).gpioWrite k i l = { t with trace := t.trace ++ [.gpioWrite k i l] } := by
  subst ht
  cases k <;> simp [State.gpioWrite, State.setLatch, Env.setLatch, State.emit]

theorem State.setRelay_again {s t u : State} {id : Nat} {on : Bool} (hc : s.env.capOk = true)
    (ht : s.setRelay id on = .next t) (hu : t.setRelay id on = .next u) :
    ∃ w, t.trace = s.trace ++ [w] ∧ u = { t with trace := t.trace ++ [w] } := by
  obtain ⟨k, i, -, hm, -, -⟩ := State.setRelay_eq_next ht
  rw [State.setRelay_of_capOk hc hm] at ht
  obtain rfl := Host.Outcome.next.inj ht
  rw [State.setRelay_of_capOk (by simpa using hc) hm] at hu
  obtain rfl := Host.Outcome.next.inj hu
  exact ⟨.gpioWrite k i (relayLevel on), State.gpioWrite_trace _ _ _ _, State.setLatch_gpioWrite_again rfl⟩

end Sys2Proof.Machine

open Sys2Proof Sys2Proof.Machine

/-- Settles O49: `step_changes`, by what the step fetches and by the instruction it runs. -/
theorem relayChangesOnlyByItsCommand : Obligations.RelayChangesOnlyByItsCommand := fun _ _ _ _ h hne =>
  step_changes h hne

/-- Settles O51: `State.setRelay_again` at the level of the command. -/
theorem repeatingARelayCommandChangesNothing : Obligations.RepeatingARelayCommandChangesNothing := by
  rintro s t u i hc ⟨id, rfl | rfl⟩ ht hu
  · exact State.setRelay_again (on := true) hc ht hu
  · exact State.setRelay_again (on := false) hc ht hu

end

section
/-! The debounce step (45_debounce_edge.md): the case a poll selects and what it does, when `DB_CONF` falls, and what each
half of the poll loop has nothing to do with. -/

namespace Sys2Proof.Machine

/-! ## The case a poll selects (R226) -/

section
variable {s : State}

theorem State.decodePoll_of_uninit (hi : s.dbInit = false) : decodePoll s.ev = .dbFirst :=
  (conditionVectorSelectsTheCase s).trans (if_pos hi)

/-- After the first poll. -/
theorem State.decodePoll_of_init (hi : s.dbInit = true) : decodePoll s.ev =
    if s.pollLevel ≠ s.dbLevel then
      (if elapsed s.cfg.timeBits s.pollNow s.dbTchg > s.cfg.debounceDelay then .dbAccept else .dbReject)
    else if elapsed s.cfg.timeBits s.pollNow s.dbTstart > s.cfg.stableTime ∧ s.dbConf = false then .dbFire
    else .dbHold :=
  (conditionVectorSelectsTheCase s).trans (if_neg (by simp [hi]))

theorem State.decodePoll_of_accepted (hi : s.dbInit = true) (hl : s.pollLevel ≠ s.dbLevel)
    (ht : elapsed s.cfg.timeBits s.pollNow s.dbTchg > s.cfg.debounceDelay) : decodePoll s.ev = .dbAccept := by
  rw [State.decodePoll_of_init hi, if_pos hl, if_pos ht]

theorem State.decodePoll_of_rejected (hi : s.dbInit = true) (hl : s.pollLevel ≠ s.dbLevel)
    (ht : elapsed s.cfg.timeBits s.pollNow s.dbTchg ≤ s.cfg.debounceDelay) : decodePoll s.ev = .dbReject := by
  rw [State.decodePoll_of_init hi, if_pos hl, if_neg ht.not_gt]

theorem State.decodePoll_of_stable (hi : s.dbInit = true) (hl : s.pollLevel = s.dbLevel)
    (ht : elapsed s.cfg.timeBits s.pollNow s.dbTstart > s.cfg.stableTime) (hc : s.dbConf = false) :
    decodePoll s.ev = .dbFire := by
  rw [State.decodePoll_of_init hi, if_neg (not_not_intro hl), if_pos ⟨ht, hc⟩]

theorem State.decodePoll_of_waiting (hi : s.dbInit = true) (hl : s.pollLevel = s.dbLevel)
    (h : elapsed s.cfg.timeBits s.pollNow s.dbTstart ≤ s.cfg.stableTime ∨ s.dbConf = true) :
    decodePoll s.ev = .dbHold := by
  have hno : ¬(elapsed s.cfg.timeBits s.pollNow s.dbTstart > s.cfg.stableTime ∧ s.dbConf = false) := by
    rintro ⟨ht, hc⟩
    exact h.elim ht.not_ge (by simp [hc])
  rw [State.decodePoll_of_init hi, if_neg (not_not_intro hl), if_neg hno]

/-- The five cases, each with all of its condition. -/
theorem State.decodePoll_ev_cases (s : State) :
    (s.dbInit = false ∧ decodePoll s.ev = .dbFirst) ∨
    (s.dbInit = true ∧ s.pollLevel ≠ s.dbLevel ∧
      elapsed s.cfg.timeBits s.pollNow s.dbTchg > s.cfg.debounceDelay ∧ decodePoll s.ev = .dbAccept) ∨
    (s.dbInit = true ∧ s.pollLevel ≠ s.dbLevel ∧
      elapsed s.cfg.timeBits s.pollNow s.dbTchg ≤ s.cfg.debounceDelay ∧ decodePoll s.ev = .dbReject) ∨
    (s.dbInit = true ∧ s.pollLevel = s.dbLevel ∧
      elapsed s.cfg.timeBits s.pollNow s.dbTstart > s.cfg.stableTime ∧ s.dbConf = false ∧ decodePoll s.ev = .dbFire) ∨
    (s.dbInit = true ∧ s.pollLevel = s.dbLevel ∧
      (elapsed s.cfg.timeBits s.pollNow s.dbTstart ≤ s.cfg.stableTime ∨ s.dbConf = true) ∧
      decodePoll s.ev = .dbHold) := by
  cases hi : s.dbInit with
  | false => exact .inl ⟨rfl, State.decodePoll_of_uninit hi⟩
  | true =>
    refine .inr ?_
    by_cases hl : s.pollLevel = s.dbLevel
    · by_cases h : elapsed s.cfg.timeBits s.pollNow s.dbTstart ≤ s.cfg.stableTime ∨ s.dbConf = true
      · exact .inr (.inr (.inr ⟨rfl, hl, h, State.decodePoll_of_waiting hi hl h⟩))
      · obtain ⟨ht, hc⟩ := not_or.mp h
        have ht := Nat.lt_of_not_le ht
        have hc := Bool.eq_false_iff.mpr hc
        exact .inr (.inr (.inl ⟨rfl, hl, ht, hc, State.decodePoll_of_stable hi hl ht hc⟩))
    · rcases Nat.lt_or_ge s.cfg.debounceDelay (elapsed s.cfg.timeBits s.pollNow s.dbTchg) with ht | ht
      · exact .inl ⟨rfl, hl, ht, State.decodePoll_of_accepted hi hl ht⟩
      · exact .inr (.inl ⟨rfl, hl, ht, State.decodePoll_of_rejected hi hl ht⟩)

end

/-! ## The sample and the escalation under `CAP_OK` -/

theorem step_of_sample_goes {s u : State} (hh : s.hung = false) (hs : s.seq = .debounce) (hu : s.sample = .goes u) :
    step s = exec (decodePoll u.ev) u := by
  simp only [step, State.fetch, State.fetchPhase, State.fetchDebounce, hh, hs, hu, Bool.false_eq_true, if_false]

/-- The sampled level and time, the two calls on the trace, and the poll marked as the last one (R225). -/
theorem State.sample_of_capOk_eq {s : State} (hc : s.env.capOk = true) {l : Level} {e : Env}
    (hl : l = bankLevel (s.tick.env.pins s.cfg.buttonBank) s.cfg.buttonBit)
    (he : e = s.tick.env.tick s.cfg.timeBits) :
    s.sample = .goes { s with
      pollLevel := l, pollNow := e.time % 2 ^ s.cfg.timeBits, env := { e with lastPoll := some e.time },
      trace := s.trace ++
        [.gpioRead s.cfg.buttonBank s.cfg.buttonBit l, .nowRead (e.time % 2 ^ s.cfg.timeBits)] } := by
  subst hl he
  rw [State.sample_of_capOk hc]
  simp [State.sampleTime, State.nowRead, State.emit, State.tick, State.clockNow, Env.counter]

theorem State.sendByte_of_capOk {s : State} (hc : s.env.capOk = true) (b : Byte) : s.sendByte b = .goes (s.txWrite b) :=
  State.call_of_capOk hc _

/-- The CR first, then the time of the pause (92_eei_decisions.md D16). -/
theorem State.escalate_of_capOk {s : State} (hc : s.env.capOk = true) {e : Env}
    (he : e = (s.env.heard s.cfg.loopback [charCR]).tick s.cfg.timeBits) :
    s.escalate = .goes { s with
      env := e, escT0 := e.time % 2 ^ s.cfg.timeBits, seq := .escWait,
      trace := s.trace ++ [.txWrite charCR, .nowRead (e.time % 2 ^ s.cfg.timeBits)] } := by
  subst he
  rw [State.escalate, State.sendByte_of_capOk hc, Progress.andThen_goes, State.beginPause_eq]
  simp [State.txWrite, State.emit, State.clockNow, Env.counter, Env.echo_eq_heard]

theorem State.escSendText_of_capOk {s : State} (hc : s.env.capOk = true) :
    s.escSendText = .goes { s with
      seq := .drain, env := s.env.heard s.cfg.loopback escalationText, trace := s.trace ++ txEvents escalationText } := by
  rw [State.escSendText, State.sendStr_of_capOk hc, Progress.andThen_goes]

/-! ## Other registers

No call at the boundary reads the line buffer, a debounce register or an output, so a change of these may be made before
the calls or after them: every operation below commutes with it. -/

/-- A change of the registers that no boundary call reads: what each becomes. -/
structure RegisterChange where
  lb : Str → Str
  lbOvf : Bool → Bool
  dbInit : Bool → Bool
  dbLevel : Level → Level
  dbTchg : Timestamp → Timestamp
  dbTstart : Timestamp → Timestamp
  dbConf : Bool → Bool
  outA : BitVec 8 → BitVec 8
  outB : BitVec 8 → BitVec 8

/-- s with its registers changed. -/
def State.under (s : State) (r : RegisterChange) : State :=
  { s with
    lb := r.lb s.lb, lbOvf := r.lbOvf s.lbOvf, dbInit := r.dbInit s.dbInit, dbLevel := r.dbLevel s.dbLevel,
    dbTchg := r.dbTchg s.dbTchg, dbTstart := r.dbTstart s.dbTstart, dbConf := r.dbConf s.dbConf, outA := r.outA s.outA,
    outB := r.outB s.outB }

/-- What calls have come to, changed: f changes the result. -/
def Progress.under {α : Type} (r : RegisterChange) (f : α → α) : Progress α → Progress α
  | .goes a => .goes (f a)
  | .hangs s => .hangs (s.under r)

/-- An outcome, changed. -/
def outcomeUnder (r : RegisterChange) : Host.Outcome State Fault Refusal → Host.Outcome State Fault Refusal
  | .next s => .next (s.under r)
  | .fault c => .fault c
  | .refused c => .refused c

section
variable (r : RegisterChange) (s : State)

theorem State.call_under {α : Type} {f : Option Nat → State → α} {g : α → α}
    (hf : ∀ bad t, f bad (t.under r) = g (f bad t)) : (s.under r).call f = (s.call f).under r g := by
  have hfate : (s.under r).env.fate = s.env.fate := rfl
  have hdraw : (s.under r).drawFate = s.drawFate.under r := rfl
  unfold State.call
  rw [hfate, hdraw]
  cases s.env.fate with
  | done => exact congrArg Progress.goes (hf none s.drawFate)
  | failed n => exact congrArg Progress.goes (hf (some n) s.drawFate)
  | hangs => rfl

theorem Progress.andThen_under {α β : Type} {p : Progress α} {g : α → α} {g' : β → β} {k : α → Progress β}
    (hk : ∀ a, k (g a) = (k a).under r g') : (p.under r g).andThen k = (p.andThen k).under r g' := by
  cases p with
  | goes a => exact hk a
  | hangs t => rfl

theorem Progress.last_under {p q : Progress State} (h : q = p.under r (State.under · r)) :
    q.last = p.last.under r := by
  subst h
  cases p <;> rfl

theorem State.readPin_under (k : InBank) (i : BitIx) :
    (s.under r).readPin k i = (s.readPin k i).under r (Prod.map id (State.under · r)) :=
  s.tick.call_under r fun _ _ => rfl

theorem State.readAdc_under : (s.under r).readAdc = s.readAdc.under r (Prod.map id (State.under · r)) :=
  s.tick.call_under r fun _ _ => rfl

theorem State.sendByte_under (b : Byte) : (s.under r).sendByte b = (s.sendByte b).under r (State.under · r) :=
  s.call_under r fun bad _ => by cases bad <;> rfl

theorem State.sendStr_under (t : Str) : (s.under r).sendStr t = (s.sendStr t).under r (State.under · r) := by
  induction t generalizing s with
  | nil => rfl
  | cons b t ih =>
    rw [State.sendStr, State.sendStr, State.sendByte_under]
    exact Progress.andThen_under r fun u => ih u

theorem State.answerInput_under (id : Nat) (k : InBank) (i : BitIx) :
    (s.under r).answerInput id k i = (s.answerInput id k i).under r (State.under · r) := by
  unfold State.answerInput
  rw [State.readPin_under]
  refine Progress.andThen_under r fun ⟨l, t⟩ => ?_
  simp only [Prod.map, State.sendStr_under]
  exact Progress.andThen_under r fun u => rfl

theorem State.readInput_under (id : Nat) : (s.under r).readInput id = outcomeUnder r (s.readInput id) := by
  unfold State.readInput
  split
  · exact congrArg Host.Outcome.next (Progress.last_under r (s.answerInput_under r id _ _))
  · rfl

theorem State.sampleAnalog_under : (s.under r).sampleAnalog = s.sampleAnalog.under r (State.under · r) := by
  unfold State.sampleAnalog
  rw [State.readAdc_under]
  exact Progress.andThen_under r fun ⟨_, t⟩ => t.sendStr_under r _

theorem State.sample_under : (s.under r).sample = s.sample.under r (State.under · r) := by
  have hcfg : (s.under r).cfg = s.cfg := rfl
  unfold State.sample
  rw [hcfg, State.readPin_under]
  exact Progress.andThen_under r fun _ => rfl

theorem State.escalate_under : (s.under r).escalate = s.escalate.under r (State.under · r) := by
  unfold State.escalate
  rw [State.sendByte_under]
  exact Progress.andThen_under r fun _ => rfl

theorem State.escSendText_under : (s.under r).escSendText = s.escSendText.under r (State.under · r) := by
  unfold State.escSendText
  rw [State.sendStr_under]
  exact Progress.andThen_under r fun _ => rfl

theorem State.escWaitPoll_under (hs : s.seq = .escWait) : (s.under r).escWaitPoll = s.escWaitPoll.under r := by
  rw [s.escWaitPoll_eq hs]
  exact (s.under r).escWaitPoll_eq hs

end

/-! ## The command path (10_state.md R34) -/

/-- The change is one of the debounce registers: the line buffer, its flag and the outputs stay. -/
structure RegisterChange.OfDebounce (r : RegisterChange) : Prop where
  lb : r.lb = id
  lbOvf : r.lbOvf = id
  outA : r.outA = id
  outB : r.outB = id

/-- The change that `State.withDebounce` makes. -/
def RegisterChange.debounce (init : Bool) (level : Level) (tchg tstart : Timestamp) (conf : Bool) : RegisterChange where
  lb := id
  lbOvf := id
  dbInit _ := init
  dbLevel _ := level
  dbTchg _ := tchg
  dbTstart _ := tstart
  dbConf _ := conf
  outA := id
  outB := id

theorem RegisterChange.ofDebounce_debounce (init : Bool) (level : Level) (tchg tstart : Timestamp) (conf : Bool) :
    (RegisterChange.debounce init level tchg tstart conf).OfDebounce := ⟨rfl, rfl, rfl, rfl⟩

section
variable {r : RegisterChange} (hr : r.OfDebounce) (s : State)
include hr

theorem State.gpioWrite_under (k : OutBank) (i : BitIx) (l : Level) :
    (s.under r).gpioWrite k i l = (s.gpioWrite k i l).under r := by
  cases k <;> simp [State.gpioWrite, State.emit, State.under, hr.outA, hr.outB]

theorem State.setRelay_under (id : Nat) (on : Bool) :
    (s.under r).setRelay id on = outcomeUnder r (s.setRelay id on) := by
  have hpin (k : OutBank) (i : BitIx) (l : Level) :
      (s.under r).writePin k i l = (s.writePin k i l).under r (State.under · r) :=
    s.call_under r fun bad t => by
      cases bad with
      | none => exact (t.setLatch k i l).gpioWrite_under hr k i l
      | some n => exact t.gpioWrite_under hr k i l
  unfold State.setRelay
  split
  · exact congrArg Host.Outcome.next (Progress.last_under r (hpin _ _ _))
  · rfl

theorem State.feedTerminator_under : (s.under r).feedTerminator = s.feedTerminator.under r := by
  have hovf : (s.under r).lbOvf = s.lbOvf := congrFun hr.lbOvf _
  have hlb : (s.under r).lb = s.lb := congrFun hr.lb _
  rcases s.feedTerminator_cases with ⟨ho, hf⟩ | ⟨ho, hl, hf⟩ | ⟨ho, hl, hf⟩ <;> rw [hf]
  · rw [State.feedTerminator_of_overflow (hovf.trans ho)]
    simp only [State.under, hr.lb, hr.lbOvf, id_eq]
  · rw [State.feedTerminator_of_line (hovf.trans ho) (hlb ▸ hl)]
    simp only [State.under, hr.lb, id_eq]
  · rw [State.feedTerminator_of_empty (hovf.trans ho) (hlb.trans hl)]
    rfl

theorem State.feedData_under (b : Byte) : (s.under r).feedData b = (s.feedData b).under r := by
  have hfull : (s.under r).lbFull = s.lbFull := by simp only [State.lbFull, State.under, hr.lb, id_eq]
  unfold State.feedData
  rw [hfull]
  split <;> simp only [State.under, hr.lb, hr.lbOvf, id_eq]

theorem exec_decodeByte_under (b : Byte) :
    exec (decodeByte b) (s.under r) = outcomeUnder r (exec (decodeByte b) s) := by
  rcases decodeByte_cases b with ⟨-, hd⟩ | ⟨-, hd⟩ | ⟨-, hd⟩ <;> rw [hd]
  · exact congrArg Host.Outcome.next (s.feedTerminator_under hr)
  · exact congrArg Host.Outcome.next (s.feedTerminator_under hr)
  · exact congrArg Host.Outcome.next (s.feedData_under hr b)

theorem exec_decodeCommand_under (g : Config) (c : Str) :
    exec (decodeCommand g c) (s.under r) = outcomeUnder r (exec (decodeCommand g c) s) := by
  rcases decodeCommand_cases g c with ⟨-, hd⟩ | ⟨n, -, -, hd | hd⟩ | ⟨n, -, hd⟩ | ⟨n, -, -, hd⟩ | ⟨n, -, hd⟩ | ⟨-, hd⟩ |
    ⟨-, -, -, -, hd⟩ <;> rw [hd]
  · rfl
  · exact s.setRelay_under hr n true
  · exact s.setRelay_under hr n false
  · rfl
  · exact s.readInput_under r n
  · rfl
  · exact congrArg Host.Outcome.next (Progress.last_under r (s.sampleAnalog_under r))
  · rfl

end

theorem step_of_drain_command {s : State} {c : Str} (hh : s.hung = false) (hs : s.seq = .drain)
    (hc : s.cmd = some c) : step s = exec (decodeCommand s.cfg c) { s with cmd := none } := by
  simp only [step, State.fetch, State.fetchPhase, State.fetchDrain, hh, hs, hc, Bool.false_eq_true, if_false]

theorem step_of_drain_empty {s : State} (hh : s.hung = false) (hs : s.seq = .drain) (hc : s.cmd = none)
    (hr : s.tick.env.rx = []) : step s = .next { s.tick with seq := .debounce } := by
  simp only [step, State.fetch, State.fetchPhase, State.fetchDrain, hh, hs, hc, hr, Bool.false_eq_true, if_false]

/-- In the drain phase the debounce registers can be changed before the step or after it. -/
theorem step_under_of_drain {r : RegisterChange} (hr : r.OfDebounce) {s t : State} (hs : s.seq = .drain)
    (h : step s = .next t) : step (s.under r) = .next (t.under r) := by
  obtain ⟨hh, ⟨-, c, hc, hx⟩ | ⟨-, hc, b, rest, hrx, hx⟩ | ⟨-, hc, hrx, rfl⟩ | ⟨hs', -⟩ | ⟨hs', -⟩ | ⟨hs', -⟩ |
    ⟨hs', -⟩⟩ := step_cases h
  · calc step (s.under r)
        = exec (decodeCommand s.cfg c) (State.under { s with cmd := none } r) := step_of_drain_command hh hs hc
      _ = .next (t.under r) := by rw [exec_decodeCommand_under hr, hx]; rfl
  · calc step (s.under r)
        = exec (decodeByte b) ((s.tick.rxPop b rest).under r) := step_of_drain_byte hh hs hc hrx
      _ = .next (t.under r) := by rw [exec_decodeByte_under hr, hx]; rfl
  · exact step_of_drain_empty hh hs hc hrx
  all_goals cases hs.symm.trans hs'

/-- A drain step leaves the debounce registers as they are: put back what they held before it, and nothing changes. -/
theorem step_of_drain_keeps_debounce {s t : State} (hs : s.seq = .drain) (h : step s = .next t) :
    t = t.withDebounce s.dbInit s.dbLevel s.dbTchg s.dbTstart s.dbConf :=
  Host.Outcome.next.inj (h.symm.trans
    (step_under_of_drain (RegisterChange.ofDebounce_debounce s.dbInit s.dbLevel s.dbTchg s.dbTstart s.dbConf) hs h))

/-! ## The debounce path (10_state.md R34) -/

/-- The change is one of the line buffer, its flag and the outputs: the debounce registers stay. -/
structure RegisterChange.OfLineAndOutputs (r : RegisterChange) : Prop where
  dbInit : r.dbInit = id
  dbLevel : r.dbLevel = id
  dbTchg : r.dbTchg = id
  dbTstart : r.dbTstart = id
  dbConf : r.dbConf = id

/-- The change that `State.withLineAndOutputs` makes. -/
def RegisterChange.lineAndOutputs (lb : Str) (ovf : Bool) (a b : BitVec 8) : RegisterChange where
  lb _ := lb
  lbOvf _ := ovf
  dbInit := id
  dbLevel := id
  dbTchg := id
  dbTstart := id
  dbConf := id
  outA _ := a
  outB _ := b

theorem RegisterChange.ofLineAndOutputs_lineAndOutputs (lb : Str) (ovf : Bool) (a b : BitVec 8) :
    (RegisterChange.lineAndOutputs lb ovf a b).OfLineAndOutputs := ⟨rfl, rfl, rfl, rfl, rfl⟩

section
variable {r : RegisterChange} (hr : r.OfLineAndOutputs)
include hr

theorem State.under_ev (s : State) : (s.under r).ev = s.ev := by
  simp only [State.ev, State.pastDebounce, State.pastStable, State.under, hr.dbInit, hr.dbLevel, hr.dbTchg, hr.dbTstart,
    hr.dbConf, id_eq]

theorem exec_decodePoll_under (ev : BitVec 5) (s : State) :
    exec (decodePoll ev) (s.under r) = outcomeUnder r (exec (decodePoll ev) s) := by
  have hconf (u : State) : ({ u.under r with dbConf := true } : State) = State.under { u with dbConf := true } r := by
    simp only [State.under, hr.dbConf, id_eq]
  rcases decodePoll_cases ev with hd | hd | hd | hd | hd <;> rw [hd]
  · simp [exec, execDbFirst, outcomeUnder, State.under, hr.dbInit, hr.dbLevel, hr.dbTchg, hr.dbTstart]
  · simp [exec, execDbAccept, outcomeUnder, State.under, hr.dbConf, hr.dbLevel, hr.dbTchg, hr.dbTstart]
  · simp [exec, execDbReject, outcomeUnder, State.under, hr.dbLevel]
  · have hesc := State.escalate_under r { s with dbConf := true }
    rw [← hconf] at hesc
    exact congrArg Host.Outcome.next (Progress.last_under r hesc)
  · rfl

/-- Outside the drain phase line buffer, flag and outputs can be changed before the step or after it. -/
theorem step_under_of_not_drain {s t : State} (hs : s.seq ≠ .drain) (h : step s = .next t) :
    step (s.under r) = .next (t.under r) := by
  obtain ⟨hh, ⟨hs', -⟩ | ⟨hs', -⟩ | ⟨hs', -⟩ | ⟨hs, u, hu, hx⟩ | ⟨hs, u, hu, rfl⟩ | ⟨hs, rfl⟩ | ⟨hs, rfl⟩⟩ :=
    step_cases h
  · exact absurd hs' hs
  · exact absurd hs' hs
  · exact absurd hs' hs
  · have hsample : (s.under r).sample = .goes (u.under r) := by rw [State.sample_under, hu]; rfl
    rw [step_of_sample_goes (s := s.under r) hh hs hsample, State.under_ev hr, exec_decodePoll_under hr, hx]
    rfl
  · have hsample : (s.under r).sample = .hangs (u.under r) := by rw [State.sample_under, hu]; rfl
    exact step_of_sample_hangs (s := s.under r) hh hs hsample
  · exact (step_of_escWait (s := s.under r) hh hs).trans (congrArg Host.Outcome.next (s.escWaitPoll_under r hs))
  · exact (step_of_escSend (s := s.under r) hh hs).trans
      (congrArg Host.Outcome.next (Progress.last_under r (s.escSendText_under r)))

end

/-! ## When `DB_CONF` falls and when it is set (R232) -/

theorem State.accept_eq_true {s : State} : s.accept = true ↔ s.dbInit = true ∧ s.pollLevel ≠ s.dbLevel ∧
    elapsed s.cfg.timeBits s.pollNow s.dbTchg > s.cfg.debounceDelay := by
  simp [State.accept, State.edge, State.pastDebounce, and_assoc]

theorem State.fire_eq_true {s : State} : s.fire = true ↔ s.dbInit = true ∧ s.pollLevel = s.dbLevel ∧
    elapsed s.cfg.timeBits s.pollNow s.dbTstart > s.cfg.stableTime ∧ s.dbConf = false := by
  simp [State.fire, State.pastStable, and_assoc]

theorem State.fire_of_decodePoll_eq_dbFire {s : State} (h : decodePoll s.ev = .dbFire) : s.fire = true := by
  rcases s.decodePoll_ev_cases with ⟨-, hd⟩ | ⟨-, -, -, hd⟩ | ⟨-, -, -, hd⟩ | ⟨hi, hl, ht, hc, -⟩ | ⟨-, -, -, hd⟩
  case inr.inr.inr.inl => exact State.fire_eq_true.mpr ⟨hi, hl, ht, hc⟩
  all_goals cases h.symm.trans hd

/-- `DB_FIRE` sets the flag; its escalation, whatever becomes of the write, touches none of the other registers but the
phase and the time of the pause. -/
theorem exec_dbFire_frame (s : State) : ∃ e tr t0 p hung, exec .dbFire s =
    .next { s with dbConf := true, env := e, trace := tr, escT0 := t0, seq := p, hung := hung } := by
  rcases State.escalate_cases { s with dbConf := true } with ⟨e, -, h⟩ | ⟨e, -, h⟩ <;>
    exact ⟨_, _, _, _, _, congrArg Host.Outcome.next h⟩

/-- After any poll `DB_INIT` is set, and `DB_CONF` is set if the poll fired, or if it was set and no change was
accepted. -/
structure State.Polled (s t : State) : Prop where
  pollLevel : t.pollLevel = s.pollLevel
  pollNow : t.pollNow = s.pollNow
  dbInit : t.dbInit = true
  dbConf : t.dbConf = (s.fire || (s.dbConf && !s.accept))

theorem exec_decodePoll_polled {s t : State} (h : exec (decodePoll s.ev) s = .next t) : s.Polled t := by
  rcases s.decodePoll_ev_cases with ⟨hi, hd⟩ | ⟨hi, hl, ht, hd⟩ | ⟨hi, hl, ht, hd⟩ | ⟨hi, hl, ht, hc, hd⟩ |
    ⟨hi, hl, ht, hd⟩ <;> rw [hd] at h
  case inr.inr.inr.inl =>
    obtain ⟨e, tr, t0, p, hung, hx⟩ := exec_dbFire_frame s
    obtain rfl := Host.Outcome.next.inj (hx.symm.trans h)
    exact ⟨rfl, rfl, hi, by simp [State.fire_eq_true.mpr ⟨hi, hl, ht, hc⟩]⟩
  all_goals cases h
  · exact ⟨rfl, rfl, rfl, by simp [State.fire, State.accept, State.edge, hi]⟩
  · exact ⟨rfl, rfl, hi, by simp [State.fire, State.accept_eq_true.mpr ⟨hi, hl, ht⟩, hl]⟩
  · exact ⟨rfl, rfl, hi, by simp [State.fire, State.accept, State.pastDebounce, hl, ht]⟩
  · exact ⟨rfl, rfl, hi, by rcases ht with ht | hc <;> simp [State.fire, State.accept, State.edge, State.pastStable, *]⟩

/-! The transitions of R245, one lemma per state of the view. -/

theorem State.Polled.dbView_of_uninit {s t : State} (h : s.Polled t) (hi : s.dbInit = false) (hc : s.dbConf = false) :
    t.dbView = .pending := by
  simp [State.dbView, h.dbInit, h.dbConf, State.fire, hi, hc]

theorem State.Polled.dbView_of_pending {s t : State} (h : s.Polled t) (hi : s.dbInit = true) (hc : s.dbConf = false) :
    t.dbView =
      if s.pollLevel = s.dbLevel ∧ elapsed s.cfg.timeBits s.pollNow s.dbTstart > s.cfg.stableTime then .confirmed
      else .pending := by
  have hfire : s.fire = true ↔
      s.pollLevel = s.dbLevel ∧ elapsed s.cfg.timeBits s.pollNow s.dbTstart > s.cfg.stableTime := by
    simp only [State.fire_eq_true, hi, hc, true_and, and_true]
  calc t.dbView
      = if s.fire then .confirmed else .pending := by simp [State.dbView, h.dbInit, h.dbConf, hc]
    _ = _ := if_congr hfire rfl rfl

theorem State.Polled.dbView_of_confirmed {s t : State} (h : s.Polled t) (hi : s.dbInit = true) (hc : s.dbConf = true) :
    t.dbView =
      if s.pollLevel ≠ s.dbLevel ∧ elapsed s.cfg.timeBits s.pollNow s.dbTchg > s.cfg.debounceDelay then .pending
      else .confirmed := by
  have hfire : s.fire = false := by simp [State.fire, hc]
  calc t.dbView
      = if s.accept then .pending else .confirmed := by
        cases hacc : s.accept <;> simp [State.dbView, h.dbInit, h.dbConf, hfire, hc, hacc]
    _ = _ := if_congr (State.accept_eq_true.trans (and_iff_right hi)) rfl rfl

/-- Every step keeps the flag set, but for a poll that accepts a change. -/
theorem step_keeps_dbConf {s t : State} (h : step s = .next t) (hs : s.dbConf = true) : t.dbConf = true ∨
    (s.hung = false ∧ s.seq = .debounce ∧ ∃ u, s.sample = .goes u ∧ u.accept = true) := by
  by_cases hd : s.seq = .drain
  · have hkept : t.dbConf = s.dbConf := by rw [step_of_drain_keeps_debounce hd h]; rfl
    exact .inl (hkept.trans hs)
  obtain ⟨hh, ⟨hs', -⟩ | ⟨hs', -⟩ | ⟨hs', -⟩ | ⟨hp, u, hu, hx⟩ | ⟨-, u, hu, rfl⟩ | ⟨hp, rfl⟩ | ⟨-, rfl⟩⟩ := step_cases h
  · exact absurd hs' hd
  · exact absurd hs' hd
  · exact absurd hs' hd
  · have hconf : u.dbConf = true := by
      obtain ⟨e, l, -, rfl⟩ := State.sample_eq_goes hu
      exact hs
    have ht := (exec_decodePoll_polled hx).dbConf
    cases hacc : u.accept with
    | true => exact .inr ⟨hh, hp, u, hu, hacc⟩
    | false => exact .inl (by simp [ht, hconf, hacc])
  · obtain ⟨e, -, rfl⟩ := State.sample_eq_hangs hu
    exact .inl hs
  · rw [s.escWaitPoll_eq hp]
    exact .inl hs
  · rcases s.escSendText_cases with ⟨e, -, hx⟩ | ⟨e, n, -, hx⟩ <;> rw [hx] <;> exact .inl hs

/-! ## The flag over a run (R239) -/

theorem State.fetchedInstr_of_sample_goes {s u : State} (hh : s.hung = false) (hs : s.seq = .debounce)
    (hu : s.sample = .goes u) : s.fetchedInstr = [decodePoll u.ev] := by
  simp only [State.fetchedInstr, State.fetch, State.fetchPhase, State.fetchDebounce, hh, hs, hu, Bool.false_eq_true,
    if_false]

/-- `DB_FIRE` comes from a poll: no byte and no Command decodes to it. -/
theorem State.fetchedInstr_eq_dbFire {s : State} (h : s.fetchedInstr = [.dbFire]) :
    s.hung = false ∧ s.seq = .debounce ∧ ∃ u, s.sample = .goes u ∧ decodePoll u.ev = .dbFire := by
  unfold State.fetchedInstr at h
  rcases s.fetch_cases with ⟨-, hf⟩ | ⟨-, -, c, -, hf⟩ | ⟨-, -, -, b, rest, -, hf⟩ | ⟨-, -, -, -, hf⟩ |
    ⟨hh, hs, u, hu, hf⟩ | ⟨-, -, u, -, hf⟩ | ⟨-, -, hf⟩ | ⟨-, -, hf⟩ <;> rw [hf] at h
  case inr.inl =>
    exfalso
    rcases decodeCommand_cases s.cfg c with ⟨-, hd⟩ | ⟨n, -, -, hd | hd⟩ | ⟨n, -, hd⟩ | ⟨n, -, -, hd⟩ | ⟨n, -, hd⟩ |
      ⟨-, hd⟩ | ⟨-, -, -, -, hd⟩ <;> simp [hd] at h
  case inr.inr.inl =>
    exfalso
    rcases decodeByte_cases b with ⟨-, hd⟩ | ⟨-, hd⟩ | ⟨-, hd⟩ <;> simp [hd] at h
  case inr.inr.inr.inr.inl => exact ⟨hh, hs, u, hu, (List.cons.inj h).1⟩
  all_goals cases h

/-- A step that fires finds the flag clear and leaves it set. -/
theorem step_of_dbFire {s : State} (h : s.fetchedInstr = [.dbFire]) :
    s.dbConf = false ∧ ∃ t, step s = .next t ∧ t.dbConf = true := by
  obtain ⟨hh, hs, u, hu, hd⟩ := State.fetchedInstr_eq_dbFire h
  obtain ⟨-, -, -, hclear⟩ := State.fire_eq_true.mp (State.fire_of_decodePoll_eq_dbFire hd)
  obtain ⟨e, tr, t0, p, hung, hx⟩ := exec_dbFire_frame u
  refine ⟨?_, _, (step_of_sample_goes hh hs hu).trans (hd ▸ hx), rfl⟩
  obtain ⟨e, l, -, rfl⟩ := State.sample_eq_goes hu
  exact hclear

theorem instrsRun_succ_of_step {s t : State} (h : step s = .next t) (k : Nat) :
    instrsRun (k + 1) s = s.fetchedInstr ++ instrsRun k t := by
  simp only [instrsRun, h]

/-- A run that has not run `DB_ACCEPT` keeps the flag set. -/
theorem run_keeps_dbConf {k : Nat} {s t : State} (h : Host.Core.run Sys2Proof.core k s = .next t)
    (hno : .dbAccept ∉ instrsRun k s) (hs : s.dbConf = true) : t.dbConf = true := by
  induction k generalizing s with
  | zero =>
    cases h
    exact hs
  | succ k ih =>
    obtain ⟨u, hu, hr⟩ := run_succ_eq_next h
    rw [instrsRun_succ_of_step hu, List.mem_append, not_or] at hno
    obtain ⟨hfirst, hrest⟩ := hno
    refine ih hr hrest ((step_keeps_dbConf hu hs).resolve_right ?_)
    rintro ⟨hh, hp, v, hv, hacc⟩
    obtain ⟨hi, hl, ht⟩ := State.accept_eq_true.mp hacc
    exact hfirst (by simp [State.fetchedInstr_of_sample_goes hh hp hv, State.decodePoll_of_accepted hi hl ht])

theorem State.fetchedInstr_cases (s : State) : s.fetchedInstr = [] ∨ ∃ i, s.fetchedInstr = [i] := by
  unfold State.fetchedInstr
  split
  · exact .inr ⟨_, rfl⟩
  · exact .inl rfl

/-- What follows the first step's instruction was run from the state after that step. -/
theorem instrsRun_eq_of_succ {k : Nat} {s : State} {l : List Instr} (h : instrsRun (k + 1) s = s.fetchedInstr ++ l)
    (hl : l ≠ []) : ∃ t, step s = .next t ∧ instrsRun k t = l := by
  have hrest := List.append_cancel_left h
  split at hrest
  · exact ⟨_, ‹_›, hrest⟩
  · exact absurd hrest.symm hl

/-- An instruction in the list of a run is run at a state the run comes to: the list up to there is what stands before
it, the list from there on begins with it. -/
theorem run_to_instr {k : Nat} {s : State} {before after : List Instr} {i : Instr}
    (h : instrsRun k s = before ++ i :: after) : ∃ j u m, Host.Core.run Sys2Proof.core j s = .next u ∧
      instrsRun j s = before ∧ u.fetchedInstr = [i] ∧ instrsRun (m + 1) u = i :: after := by
  induction k generalizing s before with
  | zero => simp [instrsRun] at h
  | succ k ih =>
    obtain ⟨hf, rfl⟩ | ⟨tail, rfl⟩ : (s.fetchedInstr = [i] ∧ before = []) ∨ ∃ tail, before = s.fetchedInstr ++ tail := by
      rcases s.fetchedInstr_cases with hf | ⟨x, hf⟩
      · exact .inr ⟨before, by rw [hf, List.nil_append]⟩
      · rw [instrsRun, hf, List.singleton_append] at h
        cases before with
        | nil => exact .inl ⟨by rw [hf, (List.cons.inj h).1], rfl⟩
        | cons b tail => exact .inr ⟨tail, by rw [hf, (List.cons.inj h).1, List.singleton_append]⟩
    · exact ⟨0, s, k, rfl, rfl, hf, h⟩
    · rw [List.append_assoc] at h
      obtain ⟨t, hstep, hrest⟩ := instrsRun_eq_of_succ h (by simp)
      obtain ⟨j, u, m, hrun, hlist, hfetched, hafter⟩ := ih hrest
      exact ⟨j + 1, u, m, (run_succ_of_step hstep j).trans hrun,
        by rw [instrsRun_succ_of_step hstep, hlist], hfetched, hafter⟩

end Sys2Proof.Machine

open Sys2Proof Sys2Proof.Machine

/-- Settles O47: `step_under_of_drain` for the change to the given contents. -/
theorem commandPathIgnoresDebounceRegisters : Obligations.CommandPathIgnoresDebounceRegisters :=
  fun _ _ init level tchg tstart conf hs h =>
    step_under_of_drain (RegisterChange.ofDebounce_debounce init level tchg tstart conf) hs h

/-- Settles O44: the flag falls in a poll that accepts a change, and its sample is what the step leaves. -/
theorem onlyAnAcceptedChangeClearsTheFlag : Obligations.OnlyAnAcceptedChangeClearsTheFlag := by
  intro s t h hs ht
  obtain ⟨hh, hp, u, hu, hacc⟩ := (step_keeps_dbConf h hs).resolve_left (by simp [ht])
  rw [step_of_sample_goes hh hp hu] at h
  have hpolled := exec_decodePoll_polled h
  rw [hpolled.pollLevel, hpolled.pollNow]
  obtain ⟨e, l, -, rfl⟩ := State.sample_eq_goes hu
  exact ⟨hp, State.accept_eq_true.mp hacc⟩

/-- Settles O45: the first firing leaves the flag set, the second finds it clear, and a run between them without
`DB_ACCEPT` would have kept it set. -/
theorem noSecondEscalationWithoutAcceptedChange : Obligations.NoSecondEscalationWithoutAcceptedChange := by
  intro k s before between after h
  by_contra hno
  obtain ⟨-, u, m, -, -, hfirst, hrest⟩ := run_to_instr (before := before) (i := .dbFire) (by simpa using h)
  obtain ⟨-, t, hstep, hset⟩ := step_of_dbFire hfirst
  rw [instrsRun_succ_of_step hstep, hfirst] at hrest
  obtain ⟨j, v, -, hrun, hbetween, hsecond, -⟩ := run_to_instr (List.cons.inj hrest).2
  have hstill : v.dbConf = true := run_keeps_dbConf hrun (hbetween ▸ hno) hset
  simp [(step_of_dbFire hsecond).1] at hstill

/-- Settles O46: the flags after the poll, by the state of the view before it. -/
theorem debounceStatesFollowTheDiagram : Obligations.DebounceStatesFollowTheDiagram := by
  intro s t u hinv hh hs hu h
  rw [step_of_sample_goes hh hs hu] at h
  have hpolled := exec_decodePoll_polled h
  rw [hpolled.pollLevel, hpolled.pollNow]
  obtain ⟨e, l, -, rfl⟩ := State.sample_eq_goes hu
  cases hi : s.dbInit with
  | false =>
    have hc : s.dbConf = false := Bool.eq_false_iff.mpr fun hc => by simp [hinv.confInit hc] at hi
    simpa [State.dbView, hi] using hpolled.dbView_of_uninit hi hc
  | true =>
    cases hc : s.dbConf with
    | false =>
      have hview : s.dbView = .pending := by simp [State.dbView, hi, hc]
      rw [hview]
      exact hpolled.dbView_of_pending hi hc
    | true =>
      have hview : s.dbView = .confirmed := by simp [State.dbView, hi, hc]
      rw [hview]
      exact hpolled.dbView_of_confirmed hi hc

/-- Settles O48: `step_under_of_not_drain` for the change to the given contents. -/
theorem debouncePathIgnoresLineAndOutputs : Obligations.DebouncePathIgnoresLineAndOutputs :=
  fun _ _ lb ovf a b hs h =>
    step_under_of_not_drain (RegisterChange.ofLineAndOutputs_lineAndOutputs lb ovf a b) hs h

/-- Settles O30: the first case, and its meaning written out. -/
theorem firstPollRecordsTheBaseline : Obligations.FirstPollRecordsTheBaseline := fun _ =>
  ⟨State.decodePoll_of_uninit, rfl⟩

/-- Settles O31: the condition of the accepted change, and its meaning written out. -/
theorem acceptedChangeRestartsTheStretch : Obligations.AcceptedChangeRestartsTheStretch := fun _ =>
  ⟨State.decodePoll_of_accepted, rfl⟩

/-- Settles O32: the condition of the rejected change, and its meaning written out. -/
theorem rejectedChangeOnlyRecordsTheLevel : Obligations.RejectedChangeOnlyRecordsTheLevel := fun _ =>
  ⟨State.decodePoll_of_rejected, rfl⟩

/-- Settles O34: the condition of the waiting level, and its meaning written out. -/
theorem holdingStepChangesNothing : Obligations.HoldingStepChangesNothing := fun _ =>
  ⟨State.decodePoll_of_waiting, rfl⟩

/-- Settles O33: the condition of the stable level, and the escalation entered with the flag set. -/
theorem firingStepSetsTheFlagAndSendsCR : Obligations.FiringStepSetsTheFlagAndSendsCR := fun s =>
  ⟨State.decodePoll_of_stable, fun hc => ⟨_, _, rfl, rfl,
    congrArg (Host.Outcome.next ∘ Progress.last) (State.escalate_of_capOk (s := { s with dbConf := true }) hc rfl)⟩⟩

/-- Settles O14: the sample under `CAP_OK`, and the step that takes it. -/
theorem stepRunsThePolledCase : Obligations.StepRunsThePolledCase := fun _ hh hs hc =>
  ⟨_, _, _, rfl, rfl, rfl, rfl, rfl, step_of_sample_goes hh hs (State.sample_of_capOk_eq hc rfl rfl)⟩

/-- Settles O17: the text is sent whole. -/
theorem escSendTransmitsHardcheck : Obligations.EscSendTransmitsHardcheck := fun _ hh hs hc =>
  ⟨_, rfl, (step_of_escSend hh hs).trans (congrArg (Host.Outcome.next ∘ Progress.last) (State.escSendText_of_capOk hc))⟩

/-- Settles O59: in each branch of db_step the condition vector selects the case of that branch. -/
theorem selectedCaseIsDbStep : Obligations.SelectedCaseIsDbStep := by
  intro s t esc h
  unfold Pseudocode.dbStep at h
  split_ifs at h with hi hl ht hc <;> obtain ⟨rfl, rfl⟩ := Prod.mk.inj h
  · rw [State.decodePoll_of_uninit hi]
    rfl
  · rw [State.decodePoll_of_accepted (Bool.eq_true_of_not_eq_false hi) hl ht]
    rfl
  · rw [State.decodePoll_of_rejected (Bool.eq_true_of_not_eq_false hi) hl (Nat.le_of_not_lt ht)]
    rfl
  · rw [State.decodePoll_of_stable (Bool.eq_true_of_not_eq_false hi) (not_not.mp hl) hc.1 hc.2]
    rfl
  · have hwait := (not_and_or.mp hc).imp Nat.le_of_not_lt Bool.eq_true_of_not_eq_false
    rw [State.decodePoll_of_waiting (Bool.eq_true_of_not_eq_false hi) (not_not.mp hl) hwait]
    rfl

end

section
/-! The poll loop (46_poll_loop.md): what time passes between polls and over the stall of an escalation, and the steps
against the spec's poll cycle. -/

namespace Sys2Proof.Machine

/-! ## From one poll to the next (R266) -/

/-- From `e` to `e'` no poll was taken: time may have passed within the wrap period. `Env.Later` without the latches,
which a relay's command writes. -/
structure Env.NoPoll (w : Nat) (e e' : Env) : Prop where
  lastPoll : e'.lastPoll = e.lastPoll
  time_le : e.time ≤ e'.time
  time_lt : ∀ p, e.lastPoll = some p → e.time < p + 2 ^ w → e'.time < p + 2 ^ w

theorem Env.Later.noPoll {w : Nat} {e e' : Env} (h : e.Later w e') : e.NoPoll w e' :=
  ⟨h.lastPoll, h.time_le, h.time_lt⟩

theorem Env.NoPoll.of_same {w : Nat} {e e' : Env} (hp : e'.lastPoll = e.lastPoll) (ht : e'.time = e.time) :
    e.NoPoll w e' :=
  ⟨hp, ht.ge, fun _ _ hlt => ht.trans_lt hlt⟩

theorem State.Answered.noPoll {s t : State} (h : s.Answered t) : s.env.NoPoll s.cfg.timeBits t.env := by
  obtain ⟨e, new, hung, he, rfl⟩ := h
  exact he.noPoll

theorem State.RelayWritten.noPoll {s t : State} (h : s.RelayWritten t) : s.env.NoPoll s.cfg.timeBits t.env := by
  obtain ⟨id, k, i, l, e, -, ⟨more, fates, n, rfl⟩, rfl | ⟨-, rfl⟩⟩ := h <;> exact .of_same (by simp) (by simp)

theorem exec_decodeByte_env {b : Byte} {s t : State} (h : exec (decodeByte b) s = .next t) : t.env = s.env := by
  rcases exec_decodeByte_eq_next h with rfl | ⟨-, rfl⟩
  · rcases s.feedTerminator_cases with ⟨-, hf⟩ | ⟨-, -, hf⟩ | ⟨-, -, hf⟩ <;> rw [hf]
  · rcases s.feedData_cases b with ⟨-, hf⟩ | ⟨-, hf⟩ <;> rw [hf]

/-- Polls are taken in the debounce phase only. -/
theorem step_noPoll {s t : State} (hs : s.seq ≠ .debounce) (h : step s = .next t) :
    s.env.NoPoll s.cfg.timeBits t.env := by
  obtain ⟨-, ⟨-, c, -, hx⟩ | ⟨-, -, b, rest, -, hx⟩ | ⟨-, -, -, rfl⟩ | ⟨hs', -⟩ | ⟨hs', -⟩ | ⟨hs, rfl⟩ | ⟨-, rfl⟩⟩ :=
    step_cases h
  · exact (exec_decodeCommand_eq_next hx).elim State.Answered.noPoll State.RelayWritten.noPoll
  · rw [exec_decodeByte_env hx]
    exact ((s.env.later_tick _).withRx rest).noPoll
  · exact (s.env.later_tick _).noPoll
  · exact absurd hs' hs
  · exact absurd hs' hs
  · rw [s.escWaitPoll_eq hs]
    exact (s.env.later_tick _).noPoll
  · rcases s.escSendText_cases with ⟨e, he, hx⟩ | ⟨e, n, he, hx⟩ <;> rw [hx] <;> exact (he.later _).noPoll

/-- The selected case takes no further sample; an escalation lets time pass before it captures `ESC_T0`. -/
theorem exec_decodePoll_later {s t : State} (h : exec (decodePoll s.ev) s = .next t) :
    s.env.Later s.cfg.timeBits t.env := by
  rcases exec_decodePoll_eq_next h with rfl | rfl | rfl | ⟨-, rfl⟩ | rfl
  case inr.inr.inr.inl =>
    rcases State.escalate_cases { s with dbConf := true } with ⟨e, he, hx⟩ | ⟨e, he, hx⟩ <;> rw [hx]
    · exact (he.later _).trans (e.later_tick _)
    · exact he.later _
  all_goals exact .refl _ _

/-- A step whose sample is taken makes a poll at a true time q: not before the state's own time, and within the wrap
period after the last poll. -/
theorem step_of_poll {s t u : State} (hs : s.seq = .debounce) (hu : s.sample = .goes u) (h : step s = .next t) :
    ∃ q, t.env.lastPoll = some q ∧ t.pollNow = q % 2 ^ s.cfg.timeBits ∧ s.env.time ≤ q ∧
      (∀ p, s.env.lastPoll = some p → s.env.time < p + 2 ^ s.cfg.timeBits → q < p + 2 ^ s.cfg.timeBits) ∧
      q ≤ t.env.time ∧ t.env.time < q + 2 ^ s.cfg.timeBits := by
  rw [step_of_sample_goes (step_cases h).1 hs hu] at h
  have hnow := (exec_decodePoll_polled h).pollNow
  have hrest := exec_decodePoll_later h
  obtain ⟨e, l, he, rfl⟩ := State.sample_eq_goes hu
  exact ⟨e.time, hrest.lastPoll, hnow, he.time_le, he.time_lt, hrest.time_le,
    hrest.time_lt e.time rfl (Nat.lt_add_of_pos_right (Nat.two_pow_pos _))⟩

/-! ## The stall of an escalation (R264) -/

/-- The poll was at true time p, no other has been taken since, and `ESC_DELAY` has passed, or the pause that began at
true time t0 is not over. -/
structure State.Stalled (p : Nat) (s : State) : Prop where
  lastPoll : s.env.lastPoll = some p
  time_lt : s.env.time < p + 2 ^ s.cfg.timeBits
  pause : p + s.cfg.escDelay ≤ s.env.time ∨
    (s.seq = .escWait ∧ ∃ t0, p ≤ t0 ∧ t0 ≤ s.env.time ∧ s.escT0 = t0 % 2 ^ s.cfg.timeBits)

/-- The pause ends once the counter shows `ESC_DELAY` since `ESC_T0`; within the wrap period this is true time. -/
theorem State.Stalled.escWaitPoll {p t0 : Nat} {s : State} (h : s.Stalled p) (hs : s.seq = .escWait) (hp : p ≤ t0)
    (ht : t0 ≤ s.env.time) (h0 : s.escT0 = t0 % 2 ^ s.cfg.timeBits) : s.escWaitPoll.Stalled p := by
  have hle : s.env.time ≤ (s.env.tick s.cfg.timeBits).time := s.env.time_le_tick _
  have hlt : (s.env.tick s.cfg.timeBits).time < p + 2 ^ s.cfg.timeBits := Env.tick_time_lt h.lastPoll h.time_lt
  have helapsed : elapsed s.cfg.timeBits s.clockNow s.escT0 = (s.env.tick s.cfg.timeBits).time - t0 := by
    rw [h0, State.clockNow, Env.counter, elapsed_mod_two_pow]
    exact elapsed_eq_sub (by omega) (by omega)
  rw [s.escWaitPoll_eq hs, helapsed]
  refine ⟨(s.env.tick_lastPoll _).trans h.lastPoll, hlt, ?_⟩
  by_cases hover : s.cfg.escDelay ≤ (s.env.tick s.cfg.timeBits).time - t0
  · exact .inl (show p + s.cfg.escDelay ≤ (s.env.tick s.cfg.timeBits).time by omega)
  · exact .inr ⟨if_neg hover, t0, hp, ht.trans hle, h0⟩

theorem step_keeps_stalled {p : Nat} {s t : State} (h : s.Stalled p) (hs : s.seq ≠ .debounce)
    (hstep : step s = .next t) : t.Stalled p := by
  rcases h.pause with hover | ⟨hw, t0, hp, ht, h0⟩
  · have henv := step_noPoll hs hstep
    have hcfg := (step_keeps hstep).cfg
    refine ⟨henv.lastPoll.trans h.lastPoll, ?_, .inl ?_⟩ <;> rw [hcfg]
    · exact henv.time_lt p h.lastPoll h.time_lt
    · exact hover.trans henv.time_le
  · rw [step_of_escWait (step_cases hstep).1 hw] at hstep
    obtain rfl := Host.Outcome.next.inj hstep
    exact h.escWaitPoll hw hp ht h0

theorem run_keeps_stalled {p n : Nat} {s t : State} (h : s.Stalled p)
    (hno : ∀ m x, m < n → Host.Core.run Sys2Proof.core m s = .next x → x.seq ≠ .debounce)
    (hrun : Host.Core.run Sys2Proof.core n s = .next t) : t.Stalled p := by
  induction n generalizing s with
  | zero =>
    cases hrun
    exact h
  | succ n ih =>
    obtain ⟨u, hstep, hrest⟩ := run_succ_eq_next hrun
    refine ih (step_keeps_stalled h (hno 0 s n.succ_pos rfl) hstep) (fun m x hm hx => ?_) hrest
    exact hno (m + 1) x (Nat.succ_lt_succ hm) ((run_succ_of_step hstep m).trans hx)

/-- The pause begins at the time the counter shows after the CR (45_debounce_edge.md R233). -/
theorem exec_decodePoll_escT0 {s t : State} (hs : s.seq = .debounce) (h : exec (decodePoll s.ev) s = .next t)
    (ht : t.seq = .escWait) : t.escT0 = t.env.counter t.cfg.timeBits := by
  rcases exec_decodePoll_eq_next h with rfl | rfl | rfl | ⟨-, rfl⟩ | rfl
  case inr.inr.inr.inl =>
    rcases State.escalate_cases { s with dbConf := true } with ⟨e, -, hx⟩ | ⟨e, -, hx⟩ <;> rw [hx] at ht ⊢
    · rfl
    · cases hs.symm.trans ht
  all_goals cases ht

/-- A step of the debounce phase that leads to `ESC_WAIT` begins a stall, at the time of its own poll. -/
theorem step_begins_stall {s t : State} (hs : s.seq = .debounce) (h : step s = .next t) (ht : t.seq = .escWait) :
    ∃ p, t.Stalled p ∧ t.pollNow = p % 2 ^ s.cfg.timeBits := by
  have hh : s.hung = false := (step_cases h).1
  have hcfg : t.cfg = s.cfg := (step_keeps h).cfg
  cases hu : s.sample with
  | goes u =>
    obtain ⟨p, hp, hnow, -, -, hle, hlt⟩ := step_of_poll hs hu h
    rw [step_of_sample_goes hh hs hu] at h
    have h0 := exec_decodePoll_escT0 ((State.seq_of_sample_eq_goes hu).trans hs) h ht
    exact ⟨p, ⟨hp, hcfg ▸ hlt, .inr ⟨ht, t.env.time, hle, le_rfl, h0⟩⟩, hnow⟩
  | hangs u =>
    rw [step_of_sample_hangs hh hs hu] at h
    obtain ⟨e, -, rfl⟩ := State.sample_eq_hangs hu
    cases h
    cases hs.symm.trans ht

/-! ## Runs that lead somewhere -/

/-- Some number of steps leads from s to t. -/
def State.Reaches (s t : State) : Prop := ∃ n, Host.Core.run Sys2Proof.core n s = .next t

theorem State.Reaches.refl (s : State) : s.Reaches s := ⟨0, rfl⟩

theorem State.Reaches.head {s t u : State} (h : step s = .next t) (h' : t.Reaches u) : s.Reaches u := by
  obtain ⟨n, hn⟩ := h'
  exact ⟨n + 1, (run_succ_of_step h n).trans hn⟩

theorem State.Reaches.trans {s t u : State} (h : s.Reaches t) (h' : t.Reaches u) : s.Reaches u := by
  obtain ⟨n, hn⟩ := h
  induction n generalizing s with
  | zero =>
    cases hn
    exact h'
  | succ n ih =>
    obtain ⟨v, hstep, hrest⟩ := run_succ_eq_next hn
    exact .head hstep (ih hrest)

/-! ## The phase, which the pseudocode does not have

The pseudocode of R260 says by its own control flow where it is, so it leaves `SEQ` at DRAIN; the machine writes it. No
boundary call reads it: what the pseudocode does from a state, the machine does from the same state in another phase. -/

/-- s in the phase p. -/
def State.atPhase (s : State) (p : Phase) : State := { s with seq := p }

section
variable {s t : State} {p : Phase}

theorem Progress.andThen_eq_goes {α β : Type} {q : Progress α} {f : α → Progress β} {b : β}
    (h : q.andThen f = .goes b) : ∃ a, q = .goes a ∧ f a = .goes b := by
  cases q with
  | goes a => exact ⟨a, rfl, h⟩
  | hangs u => cases h

theorem State.call_atPhase {α : Type} {f : Option Nat → State → α} {g : α → α} {a : α}
    (hf : ∀ bad u, f bad (u.atPhase p) = g (f bad u)) (h : s.call f = .goes a) :
    (s.atPhase p).call f = .goes (g a) := by
  have hfate : (s.atPhase p).env.fate = s.env.fate := rfl
  have hdraw : (s.atPhase p).drawFate = s.drawFate.atPhase p := rfl
  unfold State.call at h ⊢
  rw [hfate, hdraw]
  cases hc : s.env.fate <;> rw [hc] at h <;> cases h
  · exact congrArg Progress.goes (hf none s.drawFate)
  · exact congrArg Progress.goes (hf _ s.drawFate)

theorem State.sendByte_atPhase {b : Byte} (h : s.sendByte b = .goes t) :
    (s.atPhase p).sendByte b = .goes (t.atPhase p) :=
  State.call_atPhase (g := (State.atPhase · p)) (fun bad _ => by cases bad <;> rfl) h

theorem State.sendStr_atPhase {text : Str} (h : s.sendStr text = .goes t) :
    (s.atPhase p).sendStr text = .goes (t.atPhase p) := by
  induction text generalizing s with
  | nil =>
    cases h
    rfl
  | cons b rest ih =>
    obtain ⟨u, hb, hrest⟩ := Progress.andThen_eq_goes h
    rw [State.sendStr, State.sendByte_atPhase hb]
    exact ih hrest

theorem State.sample_atPhase (h : s.sample = .goes t) : (s.atPhase p).sample = .goes (t.atPhase p) := by
  obtain ⟨⟨l, u⟩, hread, hrest⟩ := Progress.andThen_eq_goes h
  have hread' : (s.atPhase p).readPin s.cfg.buttonBank s.cfg.buttonBit = .goes (l, u.atPhase p) :=
    State.call_atPhase (s := s.tick) (g := Prod.map id (State.atPhase · p)) (fun _ _ => rfl) hread
  cases hrest
  exact congrArg (Progress.andThen · _) hread'

theorem dbStep_atPhase {l : Level} {now : Timestamp} {esc : Bool} (h : Pseudocode.dbStep l now s = (t, esc)) :
    Pseudocode.dbStep l now (s.atPhase p) = (t.atPhase p, esc) := by
  unfold Pseudocode.dbStep at h
  split_ifs at h with hi hl ht hc <;> cases h
  · exact if_pos hi
  · exact (if_neg hi).trans ((if_pos hl).trans (if_pos ht))
  · exact (if_neg hi).trans ((if_pos hl).trans (if_neg ht))
  · exact (if_neg hi).trans ((if_neg hl).trans (if_pos hc))
  · exact (if_neg hi).trans ((if_neg hl).trans (if_neg hc))

end

/-! ## The states of a poll cycle -/

/-- What is true at every point of the pseudocode's poll cycle: the block does not hang, `SEQ` is not written, and no
Command is in transit, for `feed` hands it over as its result. -/
structure State.InCycle (s : State) : Prop where
  hung : s.hung = false
  seq : s.seq = .drain
  cmd : s.cmd = none

section
variable {s t : State}

theorem State.InCycle.atPhase_drain (h : s.InCycle) : s.atPhase .drain = s := by rw [← h.seq]; rfl

theorem State.InCycle.without_cmd (h : s.InCycle) : { s with cmd := none } = s := by rw [← h.cmd]

theorem State.InCycle.feed (h : s.InCycle) {b : Byte} {r : Option Str} (ht : Pseudocode.feed b s = (t, r)) :
    t.InCycle := by
  unfold Pseudocode.feed at ht
  split_ifs at ht <;> cases ht <;> exact { h with }

theorem State.InCycle.sendStr (h : s.InCycle) {text : Str} (ht : s.sendStr text = .goes t) : t.InCycle := by
  rcases s.sendStr_cases text with ⟨e, -, hx⟩ | ⟨e, k, -, -, hx⟩ <;> cases hx.symm.trans ht
  exact { h with }

theorem State.InCycle.sample (h : s.InCycle) (ht : s.sample = .goes t) : t.InCycle := by
  obtain ⟨e, l, -, rfl⟩ := State.sample_eq_goes ht
  exact { h with }

theorem State.InCycle.dbStep (h : s.InCycle) {l : Level} {now : Timestamp} {esc : Bool}
    (ht : Pseudocode.dbStep l now s = (t, esc)) : t.InCycle := by
  unfold Pseudocode.dbStep at ht
  split_ifs at ht <;> cases ht <;> exact { h with }

/-- A dispatch that does not hang. -/
theorem State.InCycle.dispatch (h : s.InCycle) {c : Str} (ht : Pseudocode.dispatch c s = .next t)
    (hh : t.hung = false) : t.InCycle := by
  rw [← decodedCommandIsDispatch] at ht
  rcases exec_decodeCommand_eq_next ht with ⟨e, new, hung, -, rfl⟩ | ⟨id, k, i, l, e, -, -, rfl | ⟨-, rfl⟩⟩
  · exact ⟨hh, h.seq, h.cmd⟩
  · exact ⟨hh, by simp [h.seq], by simp [h.cmd]⟩
  · exact ⟨hh, by simp [h.seq], by simp [h.cmd]⟩

end

/-! ## The drain phase (R261, R262) -/

/-- The byte instructions are the spec's feed (40_line_assembler.md R130), its result put in transit. -/
theorem exec_decodeByte_of_feed {b : Byte} {s t : State} {r : Option Str} (h : Pseudocode.feed b s = (t, r)) :
    exec (decodeByte b) s = .next { t with cmd := r } := by
  unfold Pseudocode.feed at h
  by_cases hb : b = 0x0D ∨ b = 0x0A
  · rw [exec_decodeByte_of_isTerminator (isTerminator_eq_true.mpr hb), State.feedTerminator]
    rw [if_pos hb] at h
    split_ifs at h ⊢ <;> cases h <;> rfl
  · have hdata : exec (decodeByte b) s = .next (s.feedData b) := by
      rw [decodeByte_of_not_isTerminator (isTerminator_eq_false.mpr (not_or.mp hb))]
      rfl
    rw [hdata, State.feedData]
    rw [if_neg hb] at h
    split_ifs at h ⊢ <;> cases h <;> rfl

theorem step_of_feed {s t : State} (hs : s.InCycle) {b : Byte} {rest : Str} {r : Option Str}
    (hrx : s.tick.env.rx = b :: rest) (hf : Pseudocode.feed b (s.tick.rxPop b rest) = (t, r)) :
    step s = .next { t with cmd := r } :=
  (step_of_drain_byte hs.hung hs.seq hs.cmd hrx).trans (exec_decodeByte_of_feed hf)

theorem step_of_dispatch {s t : State} (hs : s.InCycle) {c : Str} (hd : Pseudocode.dispatch c s = .next t) :
    step { s with cmd := some c } = .next t :=
  calc step { s with cmd := some c }
      = exec (decodeCommand s.cfg c) { s with cmd := none } :=
        step_of_drain_command (s := { s with cmd := some c }) hs.hung hs.seq rfl
    _ = .next t := by rw [hs.without_cmd, decodedCommandIsDispatch, hd]

/-- A round of the loop is one step, or two where the byte ends a line. -/
theorem drainPhase_reaches {k : Nat} {s t : State} (hs : s.InCycle) (h : Pseudocode.drainPhase k s = some t) :
    t.InCycle ∧ s.Reaches (t.atPhase .debounce) := by
  induction k generalizing s with
  | zero => cases h
  | succ k ih =>
    rw [Pseudocode.drainPhase] at h
    split at h
    next hrx =>
      cases h
      exact ⟨{ hs with }, .head (step_of_drain_empty hs.hung hs.seq hs.cmd hrx) (.refl _)⟩
    next b rest hrx =>
      have hpop : (s.tick.rxPop b rest).InCycle := { hs with }
      split at h
      next s1 hf =>
        have hs1 := hpop.feed hf
        obtain ⟨ht, hreach⟩ := ih hs1 h
        exact ⟨ht, .head (hs1.without_cmd ▸ step_of_feed hs hrx hf) hreach⟩
      next s1 c hf =>
        have hs1 := hpop.feed hf
        split at h
        next s2 hd =>
          split_ifs at h with hh
          obtain ⟨ht, hreach⟩ := ih (hs1.dispatch hd (Bool.eq_false_iff.mpr hh)) h
          exact ⟨ht, .head (step_of_feed hs hrx hf) (.head (step_of_dispatch hs1 hd) hreach)⟩
        next => cases h

/-! ## The debounce phase (R263, R233) -/

theorem ended_eq_some {α : Type} {q : Progress α} {a : α} (h : Pseudocode.ended q = some a) : q = .goes a := by
  cases q <;> cases h
  rfl

/-- The looks at the clock until the pause is over. -/
theorem delay_reaches {k : Nat} {s t : State} (hs : s.InCycle) (h : Pseudocode.delay k s = some t) :
    t.InCycle ∧ (s.atPhase .escWait).Reaches (t.atPhase .escSend) := by
  induction k generalizing s with
  | zero => cases h
  | succ k ih =>
    have hnow : s.nowRead.InCycle := { hs with }
    have hstep : step (s.atPhase .escWait) = .next (s.atPhase .escWait).escWaitPoll := step_of_escWait hs.hung rfl
    rw [Pseudocode.delay] at h
    split at h
    next hover =>
      cases h
      exact ⟨hnow, .head (hstep.trans (congrArg Host.Outcome.next (if_pos hover))) (.refl _)⟩
    next hwait =>
      obtain ⟨ht, hreach⟩ := ih hnow h
      exact ⟨ht, .head (hstep.trans (congrArg Host.Outcome.next (if_neg hwait))) hreach⟩

theorem State.sendStr_singleton (s : State) (b : Byte) : s.sendStr [b] = s.sendByte b := by
  rw [State.sendStr]
  cases s.sendByte b <;> rfl

theorem step_of_sendStr_escalationText {s t : State} (hs : s.InCycle) (h : s.sendStr escalationText = .goes t) :
    step (s.atPhase .escSend) = .next t := by
  have hsend : (s.atPhase .escSend).escSendText = .goes t := by
    rw [State.escSendText, State.sendStr_atPhase h]
    exact congrArg Progress.goes (hs.sendStr h).atPhase_drain
  rw [step_of_escSend (s := s.atPhase .escSend) hs.hung rfl, hsend, Progress.last_goes]

/-- The escalation's entry is part of the debounce step; the pause and the text are the steps after it. -/
theorem escalate_reaches {k : Nat} {s t : State} (hs : s.InCycle) (h : Pseudocode.escalate k s = some t) :
    ∃ u, (s.atPhase .debounce).escalate = .goes u ∧ u.Reaches t := by
  simp only [Pseudocode.escalate, Option.bind_eq_bind, Option.bind_eq_some_iff] at h
  obtain ⟨s1, h1, s2, h2, s3, h3, h4⟩ := h
  have hcr : s.sendByte charCR = .goes s1 := ended_eq_some h1
  have hs1 : s1.InCycle := hs.sendStr ((s.sendStr_singleton charCR).trans hcr)
  have hentry : (s.atPhase .debounce).escalate = .goes (s1.atPhase .debounce).beginPause :=
    congrArg (Progress.andThen · _) (State.sendByte_atPhase hcr)
  obtain ⟨hs2, hpause⟩ := delay_reaches (s := { s1.nowRead with escT0 := s1.clockNow }) { hs1 with } h2
  have htext : s2.sendStr escalationText = .goes t := by
    rw [escalationText, State.sendStr_append, ended_eq_some h3, Progress.andThen_goes, State.sendStr_singleton]
    exact ended_eq_some h4
  exact ⟨_, hentry, hpause.trans (.head (step_of_sendStr_escalationText hs2 htext) (.refl t))⟩

theorem step_of_dbStep {s u t : State} {esc : Bool} (hh : s.hung = false) (hu : s.sample = .goes u)
    (hd : Pseudocode.dbStep u.pollLevel u.pollNow u = (t, esc)) : step (s.atPhase .debounce) =
      .next (if esc then (t.atPhase .debounce).escalate.last else t.atPhase .drain) :=
  calc step (s.atPhase .debounce)
      = exec (decodePoll (u.atPhase .debounce).ev) (u.atPhase .debounce) :=
        step_of_sample_goes (s := s.atPhase .debounce) hh rfl (State.sample_atPhase hu)
    _ = _ := selectedCaseIsDbStep (u.atPhase .debounce) _ _ (dbStep_atPhase hd)

theorem debouncePhase_reaches {k : Nat} {s t : State} (hs : s.InCycle) (h : Pseudocode.debouncePhase k s = some t) :
    (s.atPhase .debounce).Reaches t := by
  simp only [Pseudocode.debouncePhase, Option.bind_eq_bind, Option.bind_eq_some_iff] at h
  obtain ⟨s1, h1, h⟩ := h
  have hsample := ended_eq_some h1
  have hs1 := hs.sample hsample
  split at h
  next s2 hd =>
    obtain ⟨u, hu, hreach⟩ := escalate_reaches (hs1.dbStep hd) h
    exact .head ((step_of_dbStep hs.hung hsample hd).trans (congrArg (Host.Outcome.next ∘ Progress.last) hu)) hreach
  next s2 hd =>
    cases h
    have hdrain := (hs1.dbStep hd).atPhase_drain
    exact .head ((step_of_dbStep hs.hung hsample hd).trans (congrArg Host.Outcome.next hdrain)) (.refl _)

end Sys2Proof.Machine

open Sys2Proof Sys2Proof.Machine

/-- Settles O55: the poll of the step is within the wrap period after the last one, so the difference of the counter's
readings is the true one. -/
theorem pollsAreLessThanAWrapApart : Obligations.PollsAreLessThanAWrapApart := by
  intro s t u p hinv _ hs hp hu h
  obtain ⟨hpast, hlt⟩ := hinv.window p hp
  obtain ⟨q, hq, hnow, hle, hwrap, -, -⟩ := step_of_poll hs hu h
  have hpq : p ≤ q := hpast.trans hle
  have hdiff : q - p < 2 ^ s.cfg.timeBits := Nat.sub_lt_left_of_lt_add hpq (hwrap p hp hlt)
  refine ⟨q, hq, hpq, hdiff, hnow, ?_⟩
  rw [hnow, elapsed_mod_two_pow, elapsed_eq_sub hpq hdiff]

/-- Settles O56: the stall that the escalating step begins is kept up to the next poll, where it must be over. -/
theorem nextPollComesAfterTheStall : Obligations.NextPollComesAfterTheStall := by
  intro n s t u v w hs h ht hno hrun hu hv hw
  obtain ⟨p, hstall, hnow⟩ := step_begins_stall hs h ht
  have hcfg : u.cfg = s.cfg := (run_keeps hrun).cfg.trans (step_keeps h).cfg
  have hend := run_keeps_stalled hstall hno hrun
  have hover : p + u.cfg.escDelay ≤ u.env.time := hend.pause.resolve_right (by simp [hu])
  obtain ⟨q, -, hnow', hle, hwrap, -, -⟩ := step_of_poll hu hv hw
  have hlt := hwrap p hend.lastPoll hend.time_lt
  rw [hcfg] at hover hnow' hlt
  rw [hnow, hnow', elapsed_mod_two_pow, elapsed_eq_sub (by omega) (by omega)]
  omega

/-- Settles O60: the drain phase, then the debounce phase with the escalation it may return. -/
theorem stepsRefineThePollCycle : Obligations.StepsRefineThePollCycle := by
  intro fuel s t hh hs hc h
  obtain ⟨s1, hdrain, hdebounce⟩ := Option.bind_eq_some_iff.mp h
  obtain ⟨hs1, hreach⟩ := drainPhase_reaches ⟨hh, hs, hc⟩ hdrain
  exact hreach.trans (debouncePhase_reaches hs1 hdebounce)

/-- Settles O13: in the drain phase the Command in transit is looked at before the bytes. -/
theorem stepRunsTheCommandInTransit : Obligations.StepRunsTheCommandInTransit := fun _ _ hh hs hc =>
  step_of_drain_command hh hs hc

/-- Settles O15: the move of the sequencer, from the state after the environment's own. -/
theorem drainEndsWhenNothingIsAvailable : Obligations.DrainEndsWhenNothingIsAvailable := fun _ hh hs hc hr =>
  step_of_drain_empty hh hs hc hr

end

section
/-! Exceptions (60_exceptions.md): every step goes on, the conditions an instruction reports, and the calls that fail and
return. -/

namespace Sys2Proof.Machine

/-! ## Every step goes on (R280, R286) -/

/-- The outcome of something begun in `s` is a next state, and under `CAP_OK` every call on the way to it returned: the
premise still holds and the block hangs no more than it did. -/
def State.GoesOn (s : State) (o : Host.Outcome State Fault Refusal) : Prop :=
  ∃ t, o = .next t ∧ (s.env.capOk = true → t.env.capOk = true ∧ t.hung = s.hung)

theorem State.goesOn_next {s t : State} (hc : t.env.capOk = s.env.capOk) (hh : t.hung = s.hung) :
    s.GoesOn (.next t) := ⟨t, rfl, fun h => ⟨hc.trans h, hh⟩⟩

/-- What makes capability calls goes on, whatever their fates, if under `CAP_OK` it comes to its end. -/
theorem State.goesOn_last {s : State} {p : Progress State}
    (h : s.env.capOk = true → ∃ t, p = .goes t ∧ t.env.capOk = true ∧ t.hung = s.hung) : s.GoesOn (.next p.last) := by
  refine ⟨p.last, rfl, fun hc => ?_⟩
  obtain ⟨t, rfl, ht⟩ := h hc
  exact ht

theorem State.GoesOn.of_same {s u : State} {o : Host.Outcome State Fault Refusal} (h : u.GoesOn o)
    (hc : u.env.capOk = s.env.capOk) (hh : u.hung = s.hung) : s.GoesOn o := by
  obtain ⟨t, ho, ht⟩ := h
  exact ⟨t, ho, fun h => (ht (hc.trans h)).imp_right (·.trans hh)⟩

theorem State.goesOn_setRelay (s : State) {id : Nat} (hid : 1 ≤ id ∧ id ≤ 11) (on : Bool) :
    s.GoesOn (s.setRelay id on) := by
  obtain ⟨⟨k, i⟩, hm⟩ := Option.isSome_iff_exists.mp (relayMap_isSome.mpr hid)
  simp only [State.setRelay, hm]
  exact State.goesOn_last fun hc => ⟨_, State.writePin_of_capOk hc k i _, by simpa using hc, by simp⟩

theorem State.goesOn_readInput (s : State) {id : Nat} (h1 : 1 ≤ id) (h8 : id ≤ 8) : s.GoesOn (s.readInput id) := by
  simp only [State.readInput, inputMap_of_le h1 h8]
  exact State.goesOn_last fun hc => ⟨_, State.answerInput_of_capOk hc id _ _ rfl, (s.env.tick_capOk _).trans hc, rfl⟩

theorem State.goesOn_sampleAnalog (s : State) : s.GoesOn (.next s.sampleAnalog.last) :=
  State.goesOn_last fun hc => ⟨_, State.sampleAnalog_of_capOk hc rfl, (s.env.tick_capOk _).trans hc, rfl⟩

theorem State.goesOn_escalate (s : State) : s.GoesOn (.next s.escalate.last) :=
  State.goesOn_last fun hc => ⟨_, State.escalate_of_capOk hc rfl, by simpa using hc, rfl⟩

theorem State.goesOn_escSendText (s : State) : s.GoesOn (.next s.escSendText.last) :=
  State.goesOn_last fun hc => ⟨_, State.escSendText_of_capOk hc, by simpa using hc, rfl⟩

theorem State.goesOn_feedTerminator (s : State) : s.GoesOn (.next s.feedTerminator) := by
  rcases s.feedTerminator_cases with ⟨-, h⟩ | ⟨-, -, h⟩ | ⟨-, -, h⟩ <;> rw [h] <;> exact State.goesOn_next rfl rfl

theorem State.goesOn_feedData (s : State) (b : Byte) : s.GoesOn (.next (s.feedData b)) := by
  rcases s.feedData_cases b with ⟨-, h⟩ | ⟨-, h⟩ <;> rw [h] <;> exact State.goesOn_next rfl rfl

theorem exec_decodeByte_goesOn (b : Byte) (s : State) : s.GoesOn (exec (decodeByte b) s) := by
  rcases decodeByte_cases b with ⟨-, hd⟩ | ⟨-, hd⟩ | ⟨-, hd⟩ <;> rw [hd]
  · exact s.goesOn_feedTerminator
  · exact s.goesOn_feedTerminator
  · exact s.goesOn_feedData b

/-- No text decodes to a number that a map refuses (20_memory.md R62, R63). -/
theorem exec_decodeCommand_goesOn (g : Config) (c : Str) (s : State) : s.GoesOn (exec (decodeCommand g c) s) := by
  rcases decodeCommand_cases g c with ⟨-, hd⟩ | ⟨n, h1, h11, hd | hd⟩ | ⟨n, -, hd⟩ | ⟨n, h1, h8, hd⟩ | ⟨n, -, hd⟩ |
    ⟨-, hd⟩ | ⟨-, -, -, -, hd⟩ <;> rw [hd]
  · exact State.goesOn_next rfl rfl
  · exact s.goesOn_setRelay ⟨h1, h11⟩ true
  · exact s.goesOn_setRelay ⟨h1, h11⟩ false
  · exact State.goesOn_next rfl rfl
  · exact s.goesOn_readInput h1 h8
  · exact State.goesOn_next rfl rfl
  · exact s.goesOn_sampleAnalog
  · exact State.goesOn_next rfl rfl

theorem exec_decodePoll_goesOn (ev : BitVec 5) (s : State) : s.GoesOn (exec (decodePoll ev) s) := by
  rcases decodePoll_cases ev with hd | hd | hd | hd | hd <;> rw [hd]
  · exact State.goesOn_next rfl rfl
  · exact State.goesOn_next rfl rfl
  · exact State.goesOn_next rfl rfl
  · exact (State.goesOn_escalate { s with dbConf := true }).of_same rfl rfl
  · exact State.goesOn_next rfl rfl

/-- The debounce phase: the sample is taken and the case it selects runs, or the read hangs, which `CAP_OK` excludes. -/
theorem step_goesOn_of_debounce {s : State} (hh : s.hung = false) (hs : s.seq = .debounce) : s.GoesOn (step s) := by
  cases hu : s.sample with
  | goes u =>
    obtain ⟨e, l, he, rfl⟩ := State.sample_eq_goes hu
    rw [step_of_sample_goes hh hs hu]
    exact (exec_decodePoll_goesOn _ _).of_same he.capOk rfl
  | hangs u =>
    rw [step_of_sample_hangs hh hs hu]
    refine ⟨_, rfl, fun hc => ?_⟩
    rw [State.sample_of_capOk hc] at hu
    cases hu

/-- The drain phase: a Command, a byte, or the end of the phase. -/
theorem step_goesOn_of_drain {s : State} (hh : s.hung = false) (hs : s.seq = .drain) : s.GoesOn (step s) := by
  cases hc : s.cmd with
  | some c =>
    rw [step_of_drain_command hh hs hc]
    exact (exec_decodeCommand_goesOn _ c _).of_same rfl rfl
  | none =>
    cases hr : s.tick.env.rx with
    | nil =>
      rw [step_of_drain_empty hh hs hc hr]
      exact State.goesOn_next (s.env.tick_capOk _) rfl
    | cons b rest =>
      rw [step_of_drain_byte hh hs hc hr]
      exact (exec_decodeByte_goesOn b _).of_same (s.env.tick_capOk _) rfl

theorem step_goesOn {s : State} (hh : s.hung = false) : s.GoesOn (step s) := by
  cases hs : s.seq with
  | drain => exact step_goesOn_of_drain hh hs
  | debounce => exact step_goesOn_of_debounce hh hs
  | escWait =>
    rw [step_of_escWait hh hs, s.escWaitPoll_eq hs]
    exact State.goesOn_next (s.env.tick_capOk _) rfl
  | escSend =>
    rw [step_of_escSend hh hs]
    exact s.goesOn_escSendText

/-! ## Reported conditions (R281, R282, R284) -/

/-- Everything that reports a condition; the I/O condition is not among it (R283). -/
theorem errorCondition_eq_some {i : Instr} {s : State} {c : ErrorCondition} (h : errorCondition i s = some c) :
    (c = .lineOvf ∧ s.lbOvf = true ∧ (i = .byteCr ∨ i = .byteLf)) ∨ (c = .outRange ∧ ∃ n, i = .outRange n) ∨
    (c = .inRange ∧ ∃ n, i = .inRange n) ∨ (c = .unknown ∧ ∃ text, i = .unknown text) := by
  cases i with
  | byteCr =>
    obtain ⟨ho, hc⟩ := Option.ite_none_right_eq_some.mp h
    exact .inl ⟨(Option.some.inj hc).symm, ho, .inl rfl⟩
  | byteLf =>
    obtain ⟨ho, hc⟩ := Option.ite_none_right_eq_some.mp h
    exact .inl ⟨(Option.some.inj hc).symm, ho, .inr rfl⟩
  | outRange n => exact .inr (.inl ⟨(Option.some.inj h).symm, n, rfl⟩)
  | inRange n => exact .inr (.inr (.inl ⟨(Option.some.inj h).symm, n, rfl⟩))
  | unknown text => exact .inr (.inr (.inr ⟨(Option.some.inj h).symm, text, rfl⟩))
  | _ => cases h

theorem State.tx_logEvent (s : State) (code : LogCode) (a : Byte) : (s.logEvent code a).tx = s.tx := by
  simp [State.tx]

/-! ## Calls that fail and return (R283) -/

section
variable {s : State} {garbage : Nat} {rest : List CallFate}

/-- A relay's write that fails is made to the shadow register only. -/
theorem State.setRelay_of_failed (hc : s.env.capOk = false) (hf : s.env.fates = .failed garbage :: rest) {id : Nat}
    {k : OutBank} {i : BitIx} (hm : relayMap id = some (k, i)) (on : Bool) :
    s.setRelay id on =
      .next (({ s with env := { s.env with fates := rest } } : State).gpioWrite k i (relayLevel on)) := by
  simp only [State.setRelay, hm, State.writePin, State.call_of_cons hc hf, Progress.last_goes]

/-- A write to the shadow register touches the two output registers and the trace (20_memory.md R66). -/
theorem State.gpioWrite_frame {t : State} {k : OutBank} {i : BitIx} {l : Level} (ht : t = s.gpioWrite k i l) :
    t = { s with outA := t.outA, outB := t.outB, trace := s.trace ++ [.gpioWrite k i l] } := by
  subst ht
  cases k <;> rfl

/-- A failed read delivers a level that the garbage gives, whatever the pin (93_implementation_defined.md U3). -/
theorem State.readPin_of_failed (hc : s.env.capOk = false) (hf : s.env.fates = .failed garbage :: rest) {k : InBank}
    {i : BitIx} {l : Level} (hl : l = bitLevel (decide (garbage % 2 = 1))) :
    s.readPin k i = .goes (l, ({ s.tick with env := { s.tick.env with fates := rest } } : State).emit
      (.gpioRead k i l)) := by
  subst hl
  exact State.call_of_cons (s := s.tick) (c := .failed garbage) (rest := rest) ((s.env.tick_capOk _).trans hc)
    ((s.env.tick_fates _).trans hf) _

/-- A failed sample delivers any count of `ADC_BITS` bits (93_implementation_defined.md U3). -/
theorem State.readAdc_of_failed (hc : s.env.capOk = false) (hf : s.env.fates = .failed garbage :: rest) {n : Nat}
    (hn : n = garbage % 2 ^ s.cfg.adcBits.val) :
    s.readAdc = .goes (n, ({ s.tick with env := { s.tick.env with fates := rest } } : State).emit
      (.adcRead s.cfg.adcChannel n)) := by
  subst hn
  exact State.call_of_cons (s := s.tick) (c := .failed garbage) (rest := rest) ((s.env.tick_capOk _).trans hc)
    ((s.env.tick_fates _).trans hf) _

/-- A string is sent if enough calls succeed. -/
theorem State.sendStr_of_done {k : Nat} {t : Str} (hc : s.env.capOk = false)
    (hf : s.env.fates = List.replicate k .done ++ rest) (hk : t.length ≤ k) :
    ∃ e, s.sendStr t = .goes { s with env := e, trace := s.trace ++ txEvents t } := by
  induction t generalizing s k with
  | nil => exact ⟨s.env, by simp [State.sendStr, txEvents]⟩
  | cons b t ih =>
    cases k with
    | zero => cases hk
    | succ k =>
      have hdone : s.env.fates = .done :: (List.replicate k .done ++ rest) := hf
      obtain ⟨e, he⟩ := ih (s := ({ s with env := { s.env with fates := List.replicate k .done ++ rest } } :
        State).txWrite b) (by simpa using hc) (by simp) (Nat.le_of_succ_le_succ hk)
      refine ⟨e, ?_⟩
      rw [State.sendStr, State.sendByte_of_done hc hdone, Progress.andThen_goes, he]
      simp [State.txWrite, State.emit, txEvents]

theorem inputResponse_length_le (l : Level) : (inputResponse l).length ≤ 4 := by
  cases l <;> decide

/-- The response to a level that was made up: bit 0 of the garbage decides. -/
theorem inputResponse_bitLevel (garbage : Nat) : inputResponse (bitLevel (decide (garbage % 2 = 1))) =
    if garbage % 2 = 1 then [0x6F, 0x66, 0x66, 0x0D] else [0x6F, 0x6E, 0x0D] := by
  by_cases h : garbage % 2 = 1
  · rw [if_pos h, decide_eq_true h]
    rfl
  · rw [if_neg h, decide_eq_false h]
    rfl

/-- An input whose read fails is answered all the same. -/
theorem State.readInput_of_failed (hc : s.env.capOk = false)
    (hf : s.env.fates = .failed garbage :: (List.replicate 4 .done ++ rest)) {id : Nat} {k : InBank} {i : BitIx}
    (hm : inputMap id = some (k, i)) {l : Level} (hl : l = bitLevel (decide (garbage % 2 = 1))) :
    ∃ e, s.readInput id = .next { s with
      env := e
      trace := s.trace ++ [.gpioRead k i l] ++ txEvents (inputResponse l) ++ [.log .inputState (inputLogArg id l)] } := by
  obtain ⟨e, he⟩ := State.sendStr_of_done (s := ({ s.tick with
    env := { s.tick.env with fates := List.replicate 4 .done ++ rest } } : State).emit (.gpioRead k i l))
    ((s.env.tick_capOk _).trans hc) rfl (inputResponse_length_le l)
  refine ⟨e, ?_⟩
  simp only [State.readInput, hm, State.answerInput, State.readPin_of_failed hc hf hl, Progress.andThen_goes, he]
  rfl

/-- A sample that fails is transmitted all the same. -/
theorem State.sampleAnalog_of_failed (hc : s.env.capOk = false)
    (hf : s.env.fates = .failed garbage :: (List.replicate 5 .done ++ rest)) {n : Nat}
    (hn : n = garbage % 2 ^ s.cfg.adcBits.val) :
    ∃ e, s.sampleAnalog = .goes { s with
      env := e, trace := s.trace ++ [.adcRead s.cfg.adcChannel n] ++ txEvents (fmt4 n ++ [charCR]) } := by
  rw [State.sampleAnalog, State.readAdc_of_failed hc hf hn, Progress.andThen_goes]
  exact State.sendStr_of_done ((s.env.tick_capOk _).trans hc) rfl (le_refl 5)

/-- The TX stream gets the response, whatever else the trace records of it. -/
theorem State.tx_of_response {t : State} {k : InBank} {i : BitIx} {l : Level} {text : Str} {c : LogCode} {a : Byte}
    (ht : t.trace = s.trace ++ [.gpioRead k i l] ++ txEvents text ++ [.log c a]) : t.tx = s.tx ++ text := by
  simp [State.tx, ht, txEvents]

end

end Sys2Proof.Machine

open Sys2Proof Sys2Proof.Machine

/-- Settles O37: in every phase the step goes on, and under `CAP_OK` no call of it hangs. -/
theorem everyStepGoesOn : Obligations.EveryStepGoesOn := by
  intro s hh
  obtain ⟨t, hstep, ht⟩ := step_goesOn hh
  exact ⟨t, hstep, fun hc => (ht hc).imp_right (·.trans hh)⟩

/-- Settles O38: an over-long line is discarded whole, and what else reports a condition logs at most. -/
theorem errorConditionsAreSilent : Obligations.ErrorConditionsAreSilent := by
  intro s i c h
  rcases errorCondition_eq_some h with ⟨rfl, ho, hi⟩ | ⟨rfl, n, rfl⟩ | ⟨rfl, n, rfl⟩ | ⟨rfl, text, rfl⟩
  · have hexec : exec i s = .next s.feedTerminator := by rcases hi with rfl | rfl <;> rfl
    rw [State.feedTerminator_of_overflow ho] at hexec
    exact ⟨_, hexec, s.tx_logEvent .lineOverflow 0, rfl, by simp, fun _ => ⟨rfl, rfl, rfl⟩⟩
  · exact ⟨_, rfl, s.tx_logEvent _ _, rfl, fun _ => ⟨rfl, rfl, rfl⟩, nofun⟩
  · exact ⟨s, rfl, rfl, rfl, fun _ => ⟨rfl, rfl, rfl⟩, nofun⟩
  · exact ⟨_, rfl, s.tx_logEvent _ _, rfl, fun _ => ⟨rfl, rfl, rfl⟩, nofun⟩

/-- Settles O36: each handler does what it does with a call that succeeds, with what the failed call delivers. -/
theorem failedCallsAreNotNoticed : Obligations.FailedCallsAreNotNoticed := by
  intro s garbage rest hc
  refine ⟨fun id on h1 h11 hf => ?relay, fun id h1 h8 hf => ?input, fun hf => ?analog⟩
  case relay =>
    obtain ⟨⟨k, i⟩, hm⟩ := Option.isSome_iff_exists.mp (relayMap_isSome.mpr ⟨h1, h11⟩)
    have hexec : exec (if on then .outOn id else .outOff id) s = s.setRelay id on := by cases on <;> rfl
    exact ⟨_, k, i, _, hm, rfl, hexec.trans (State.setRelay_of_failed hc hf hm on),
      fun k' i' => State.outLevel_gpioWrite _ k k' i i' _, State.gpioWrite_frame rfl⟩
  case input =>
    obtain ⟨e, hread⟩ := State.readInput_of_failed hc hf (inputMap_of_le h1 h8) rfl
    exact ⟨_, hread, rfl, inputResponse_bitLevel garbage ▸ State.tx_of_response rfl⟩
  case analog =>
    obtain ⟨e, hsample⟩ := State.sampleAnalog_of_failed hc hf rfl
    exact ⟨_, congrArg (Host.Outcome.next ∘ Progress.last) hsample, rfl,
      (State.tx_append_txEvents (s.emit _) _).trans (congrArg (· ++ _) (s.tx_emit_adcRead _ _))⟩

end

section
/-! A reset of a running machine (70_reset_and_hazards.md R320, R322 to R324): the relays after it, and what it reads of
the state before it. -/

namespace Sys2Proof.Machine

/-- Bring-up leaves the latches equal to the shadow registers (R322), in any environment: the invariant says so under
`CAP_OK`, and neither the latches nor the shadows after a reset depend on that premise. -/
theorem State.resetWith_latchLevel (c : Config) (u : Unspecified) (e : Env) (tr : List Event) {id : Nat} {k : OutBank}
    {i : BitIx} (hm : relayMap id = some (k, i)) :
    (State.resetWith c u e tr).env.latchLevel k i = (State.resetWith c u e tr).outLevel k i :=
  (State.resetWith_inv c u { e with capOk := true } tr).output.latched rfl id k i hm

/-- Nothing is kept across a reset but the parameters, the environment and the past calls (R323). -/
theorem State.assertReset_congr {s s' : State} (hcfg : s.cfg = s'.cfg) (henv : s.env = s'.env)
    (htrace : s.trace = s'.trace) (u : Unspecified) : s.assertReset u = s'.assertReset u := by
  simp only [State.assertReset, hcfg, henv, htrace]

end Sys2Proof.Machine

open Sys2Proof Sys2Proof.Machine

/-- Settles O42: the registers are those of any state after reset (O41), in the configuration and the environment of
the running machine. -/
theorem resetForgetsRegistersAndKeepsTheOutside : Obligations.ResetForgetsRegistersAndKeepsTheOutside := by
  intro s s' u
  obtain ⟨hlb, hovf, hinit, hconf, hseq, hhung, hbankA, hbankB⟩ :=
    registersAfterReset.1 s.cfg u s.env s.trace
  have hlatch : ∀ id k i, relayMap id = some (k, i) →
      (s.assertReset u).env.latchLevel k i = (s.assertReset u).outLevel k i :=
    fun _ _ _ hm => State.resetWith_latchLevel s.cfg u s.env s.trace hm
  exact ⟨hlb, hovf, hinit, hconf, hseq, rfl, hhung, hbankA, hbankB, hlatch, rfl, rfl, rfl,
    fun hcfg henv htrace => State.assertReset_congr hcfg henv htrace u⟩

end
